-- ==== Sys2Proof/Word.lean ====
section
/-! DEFINITION. The engine's fixed sizes as types (00_scope.md R8, R10): bytes, words, the 64-bit counter, the 64-byte
block, the 32-byte digest. -/

namespace Sys2Proof

/-- A byte: an unsigned integer below 256, bit 0 the least significant (R10). -/
abbrev Byte := BitVec 8

/-- A word: an unsigned integer below 2^32, bit 0 the least significant (R10). -/
abbrev Word := BitVec 32

/-- The bit counter of a context: an unsigned integer below 2^64 (R12). -/
abbrev Counter := BitVec 64

/-- A block, a pending buffer or a normalized key: exactly 64 bytes (R8). -/
abbrev Block := Vector Byte 64

/-- A digest or a MAC: exactly 32 bytes (R8). -/
abbrev Digest := Vector Byte 32

end Sys2Proof
end

