-- ==== Sys2Proof/Machine/Bytes.lean ====
section
/-! DEFINITION. Byte strings and byte order: everything is big-endian (20_memory.md R50 to R54, 00_scope.md R13). -/

namespace Sys2Proof

/-- `rep(v, n)`: the byte `v` repeated `n` times (R13). -/
def rep (v : Byte) (n : Nat) : List Byte := List.replicate n v

/-- The first `n` elements of `l`, filled with `z` on the right up to exactly `n`. -/
def padTo {α : Type} (n : Nat) (z : α) (l : List α) : Vector α n :=
  ⟨⟨l.take n ++ List.replicate (n - l.length) z⟩, by simp; omega⟩

/-- A 64-byte block from a byte string, zero-filled on the right. -/
def blockOf (l : List Byte) : Block := padTo 64 0 l

/-- A 32-byte digest from a byte string. -/
def digestOf (l : List Byte) : Digest := padTo 32 0 l

/-- Byte-wise exclusive-or of a block with one byte repeated (R13, R176). -/
def xorByte (b : Block) (k : Byte) : Block := blockOf (b.toList.map (· ^^^ k))

/-- `be32(b)`: the word `b[0]*2^24 + b[1]*2^16 + b[2]*2^8 + b[3]` (R50). Only strings of length 4 occur. -/
def be32 : List Byte → Word
  | [b0, b1, b2, b3] =>
    BitVec.ofNat 32 (b0.toNat * 2 ^ 24 + b1.toNat * 2 ^ 16 + b2.toNat * 2 ^ 8 + b3.toNat)
  | _ => 0

/-- `to_be32(w)`: the bytes `(w[31:24], w[23:16], w[15:8], w[7:0])` (R51). -/
def toBe32 (w : Word) : List Byte :=
  [w.extractLsb' 24 8, w.extractLsb' 16 8, w.extractLsb' 8 8, w.extractLsb' 0 8]

/-- `to_be64(n)`: byte `i` is `n[63-8i : 56-8i]` (R52). -/
def toBe64 (n : Counter) : List Byte :=
  [n.extractLsb' 56 8, n.extractLsb' 48 8, n.extractLsb' 40 8, n.extractLsb' 32 8,
    n.extractLsb' 24 8, n.extractLsb' 16 8, n.extractLsb' 8 8, n.extractLsb' 0 8]

/-- `be64(b)`: the unsigned number `b[0]*2^56 + b[1]*2^48 + ... + b[7]` (R52, R72). Only strings of length 8 occur. -/
def be64 (b : List Byte) : Nat := b.foldl (fun acc x => acc * 2 ^ 8 + x.toNat) 0

end Sys2Proof
end

