-- ==== Sys2Proof/Syntax.lean ====
section
/-! DEFINITION. The commands as syntax: the ten opcodes and their packet formats (30_encoding.md R76), and one constructor of
`Instr` per row of spec/opcode_table.json. -/

namespace Sys2Proof

/-- The ten commands of the opcode map (R76), without operands. -/
inductive Opcode where
  | init | update | final | hash | buf
  | hmacInit | hmacUpdate | hmacFinal | hmac | hmacBuf
  deriving DecidableEq, Repr

/-- The three packet formats (R70, R73 to R75): header alone, one operand, two operands. -/
inductive Format where
  | S | L1 | L2
  deriving DecidableEq, Repr

/-- A command with its operands, as its packet carries them (R76, R77). `slot` is byte `h1` of the header; BUF and
HMAC_BUF name no slot. In `hmac` and `hmacBuf` the data comes before the key (R75). -/
inductive Instr where
  | init (slot : Byte)
  | update (slot : Byte) (data : List Byte)
  | final (slot : Byte)
  | hash (slot : Byte) (data : List Byte)
  | buf (data : List Byte)
  | hmacInit (slot : Byte) (key : List Byte)
  | hmacUpdate (slot : Byte) (data : List Byte)
  | hmacFinal (slot : Byte)
  | hmac (slot : Byte) (data : List Byte) (key : List Byte)
  | hmacBuf (data : List Byte) (key : List Byte)
  deriving DecidableEq, Repr

end Sys2Proof
end

