-- ==== Sys2Proof/WellFormed.lean ====
section
/-! DEFINITION. Which `Instr` a packet can carry: every operand's length fits its 8-byte length field (30_encoding.md R72,
20_memory.md R55). A slot byte out of range is not ill-formed: it is a BadSlot (R79). -/

namespace Sys2Proof

/-- An operand's length is in the range of the length field, `[0, 2^64)` (R72). -/
abbrev lengthFits (x : List Byte) : Prop := x.length < 2 ^ 64

/-- The command can be written as a packet. -/
def WellFormed : Instr → Prop
  | .init _ => True
  | .update _ x => lengthFits x
  | .final _ => True
  | .hash _ x => lengthFits x
  | .buf x => lengthFits x
  | .hmacInit _ y => lengthFits y
  | .hmacUpdate _ x => lengthFits x
  | .hmacFinal _ => True
  | .hmac _ x y => lengthFits x ∧ lengthFits y
  | .hmacBuf x y => lengthFits x ∧ lengthFits y

end Sys2Proof
end

