-- ==== Sys2Proof/Decode.lean ====
section
/-! DEFINITION. The packet encoding (30_encoding.md R70 to R82): the decoder, total on any bytes, then the encoder, written
from the same tables. What the decoder cannot know, the slot count and the slot's phase (R80 steps 3 and 4), is tested by
`headerFault` in Machine/Operands.lean before the rest of the packet is looked at. -/

namespace Sys2Proof

/-- The opcode map: the value of OP of each command (R76). -/
def opcodeByte : Opcode → Byte
  | .init => 0x01
  | .update => 0x02
  | .final => 0x03
  | .hash => 0x04
  | .buf => 0x05
  | .hmacInit => 0x11
  | .hmacUpdate => 0x12
  | .hmacFinal => 0x13
  | .hmac => 0x14
  | .hmacBuf => 0x15

/-- The packet format of each command (R73 to R76). -/
def opcodeFormat : Opcode → Format
  | .init => .S
  | .update => .L1
  | .final => .S
  | .hash => .L1
  | .buf => .L1
  | .hmacInit => .L1
  | .hmacUpdate => .L1
  | .hmacFinal => .S
  | .hmac => .L2
  | .hmacBuf => .L2

/-- Whether the SLOT byte names a slot; in BUF and HMAC_BUF it must be 0 (R71, R76, R79). -/
def opcodeNamesSlot : Opcode → Bool
  | .init => true
  | .update => true
  | .final => true
  | .hash => true
  | .buf => false
  | .hmacInit => true
  | .hmacUpdate => true
  | .hmacFinal => true
  | .hmac => true
  | .hmacBuf => false

/-- The rows of the opcode map, in its order (R76). -/
def opcodes : List Opcode :=
  [.init, .update, .final, .hash, .buf, .hmacInit, .hmacUpdate, .hmacFinal, .hmac, .hmacBuf]

/-- The command an OP byte stands for; none for the 246 illegal values (R78). -/
def opcodeOfByte (h0 : Byte) : Option Opcode := opcodes.find? fun op => opcodeByte op == h0

/-- What the front of a byte sequence is, as far as its header tells without the machine's state (R80 steps 1 and 2). -/
inductive Header where
  /-- fewer than four bytes are present (R80 step 1) -/
  | short
  /-- an illegal opcode or a reserved byte that is not zero (R78, R79): `IllegalCommand`, with `h0` and `h1` -/
  | illegal (h0 h1 : Byte)
  /-- a command, its SLOT byte, and the bytes after the header -/
  | command (op : Opcode) (h1 : Byte) (body : List Byte)
  deriving DecidableEq, Repr

/-- The header checks that need no state (R80 steps 1 and 2). -/
def decodeHeader : List Byte → Header
  | h0 :: h1 :: h2 :: h3 :: body =>
    match opcodeOfByte h0 with
    | none => .illegal h0 h1
    | some op =>
      if h2 ≠ 0 ∨ h3 ≠ 0 ∨ (opcodeNamesSlot op = false ∧ h1 ≠ 0) then .illegal h0 h1
      else .command op h1 body
  | _ => .short

/-- The result of decoding the front of a byte sequence. -/
inductive Decoded where
  /-- the sequence is a proper beginning of a packet (R82) -/
  | incomplete
  /-- the header is illegal (R78, R79) -/
  | illegal (h0 h1 : Byte)
  /-- a whole packet, and the bytes after its last operand byte (R81) -/
  | packet (i : Instr) (rest : List Byte)
  deriving DecidableEq, Repr

/-- The body of a format L1 packet: LEN, then an operand of LEN bytes (R74). -/
def decodeL1 (mk : List Byte → Instr) (body : List Byte) : Decoded :=
  if body.length < 8 then .incomplete
  else
    let len := be64 (body.take 8)
    let operand := body.drop 8
    if operand.length < len then .incomplete
    else .packet (mk (operand.take len)) (operand.drop len)

/-- The body of a format L2 packet: LEN, KLEN, then LEN data bytes and KLEN key bytes (R75). -/
def decodeL2 (mk : List Byte → List Byte → Instr) (body : List Byte) : Decoded :=
  if body.length < 16 then .incomplete
  else
    let len := be64 (body.take 8)
    let klen := be64 ((body.drop 8).take 8)
    let operands := body.drop 16
    if operands.length < len + klen then .incomplete
    else .packet (mk (operands.take len) ((operands.drop len).take klen)) (operands.drop (len + klen))

/-- The bytes after the header, by the command's format (R73 to R76). -/
def decodeBody (op : Opcode) (h1 : Byte) (body : List Byte) : Decoded :=
  match op with
  | .init => .packet (.init h1) body
  | .update => decodeL1 (.update h1) body
  | .final => .packet (.final h1) body
  | .hash => decodeL1 (.hash h1) body
  | .buf => decodeL1 .buf body
  | .hmacInit => decodeL1 (.hmacInit h1) body
  | .hmacUpdate => decodeL1 (.hmacUpdate h1) body
  | .hmacFinal => .packet (.hmacFinal h1) body
  | .hmac => decodeL2 (.hmac h1) body
  | .hmacBuf => decodeL2 .hmacBuf body

/-- The decoder, total on any bytes (R80, R81). -/
def decode (bytes : List Byte) : Decoded :=
  match decodeHeader bytes with
  | .short => .incomplete
  | .illegal h0 h1 => .illegal h0 h1
  | .command op h1 body => decodeBody op h1 body

/-- The opcode of a command (R76). -/
def instrOpcode : Instr → Opcode
  | .init _ => .init
  | .update _ _ => .update
  | .final _ => .final
  | .hash _ _ => .hash
  | .buf _ => .buf
  | .hmacInit _ _ => .hmacInit
  | .hmacUpdate _ _ => .hmacUpdate
  | .hmacFinal _ => .hmacFinal
  | .hmac _ _ _ => .hmac
  | .hmacBuf _ _ => .hmacBuf

/-- The SLOT byte of a command's header; 0 where the command names no slot (R71, R76). -/
def instrSlotByte : Instr → Byte
  | .init s => s
  | .update s _ => s
  | .final s => s
  | .hash s _ => s
  | .buf _ => 0
  | .hmacInit s _ => s
  | .hmacUpdate s _ => s
  | .hmacFinal s => s
  | .hmac s _ _ => s
  | .hmacBuf _ _ => 0

/-- The first operand `X` of a command; the empty string where the format has none (R76). -/
def instrX : Instr → List Byte
  | .init _ => []
  | .update _ x => x
  | .final _ => []
  | .hash _ x => x
  | .buf x => x
  | .hmacInit _ y => y
  | .hmacUpdate _ x => x
  | .hmacFinal _ => []
  | .hmac _ x _ => x
  | .hmacBuf x _ => x

/-- The second operand `Y` of a command; the empty string where the format has none (R76). -/
def instrY : Instr → List Byte
  | .init _ => []
  | .update _ _ => []
  | .final _ => []
  | .hash _ _ => []
  | .buf _ => []
  | .hmacInit _ _ => []
  | .hmacUpdate _ _ => []
  | .hmacFinal _ => []
  | .hmac _ _ y => y
  | .hmacBuf _ y => y

/-- The packet length `L` of a command: `4`, `12 + LEN` or `20 + LEN + KLEN` (R81). -/
def packetLength (i : Instr) : Nat :=
  match opcodeFormat (instrOpcode i) with
  | .S => 4
  | .L1 => 12 + (instrX i).length
  | .L2 => 20 + (instrX i).length + (instrY i).length

/-- The length field of an operand: its length as 8 big-endian bytes (R72). -/
def lengthField (x : List Byte) : List Byte := toBe64 (BitVec.ofNat 64 x.length)

/-- The encoder: the packet of a command (R71, R73 to R76). -/
def encode (i : Instr) : List Byte :=
  [opcodeByte (instrOpcode i), instrSlotByte i, 0, 0] ++
    match opcodeFormat (instrOpcode i) with
    | .S => []
    | .L1 => lengthField (instrX i) ++ instrX i
    | .L2 => lengthField (instrX i) ++ lengthField (instrY i) ++ instrX i ++ instrY i

/-- The five 32-bit words of the longest packet without operand bytes, laid out as CMD_IN carries them: word `k` of the
table's numbering is bits `32k+31 : 32k` of `w`, and each word is sent most significant byte first (R71, R72). Bits at and
above `nbits` are 0. -/
def tableBytes (nbits w : Nat) : List Byte :=
  (List.range 5).flatMap fun k => toBe32 (BitVec.ofNat 32 ((w % 2 ^ nbits) / 2 ^ (32 * k)))

/-- The command the decoder reads from table word `w` (host interface). -/
def decodeTableWord (nbits w : Nat) : Option Instr :=
  match decode (tableBytes nbits w) with
  | .packet i _ => some i
  | .illegal _ _ => none
  | .incomplete => none

end Sys2Proof
end

