-- ==== Sys2Proof/Config.lean ====
section
/-! DEFINITION. What an instance of the engine fixes: the number of context slots (00_scope.md R9). The spec leaves no value
free (93_implementation_defined.md, end of Part 1), so there is no free value here. -/

namespace Sys2Proof

/-- The bounds the spec puts on NCTX: `1 <= NCTX <= 256` (R9). -/
def Config.LegalNctx (n : Nat) : Prop := 1 ≤ n ∧ n ≤ 256

/-- DESIGN CHOICE (log entry 1; unsafe for a claim about `State.reset` alone): the NCTX of the instance `State.reset`
describes, the one the programs of 95_test_vectors.md section 9 run on. NCTX is an open parameter (R9): the machine
itself takes it from the number of slots of the state, and `State.resetOf` gives the reset state for every NCTX. -/
def Config.nctx : Nat := 2

end Sys2Proof
end

