-- ==== Sys2Proof/Machine/State.lean ====
section
/-! DEFINITION. The state of the engine (10_state.md R20 to R41) as plain data, the reset state, and the reasons why a step
does not exist. -/

namespace Sys2Proof.Machine

/-- A HashState: eight words, labelled A to H by the source (R22); `V[s][0]` is `a`, `V[s][7]` is `h`. -/
structure HashState where
  a : Word
  b : Word
  c : Word
  d : Word
  e : Word
  f : Word
  g : Word
  h : Word
  deriving DecidableEq, Repr

/-- The lifecycle tag of a slot (R26). The three constructors are its three legal values; the byte they stand for is
`phaseByte` in Machine/Port.lean (log entry 2). -/
inductive Phase where
  /-- value 0: the slot holds no context -/
  | idle
  /-- value 1: a StreamingContext created by INIT -/
  | hash
  /-- value 2: an HmacContext created by HMAC_INIT -/
  | hmac
  deriving DecidableEq, Repr

/-- A context slot, or the temporary context `T` (R21 to R26, R28). -/
structure Slot where
  /-- `V[s][0..7]` (R22) -/
  v : HashState
  /-- `N[s]`, the number of message bits absorbed (R23) -/
  n : Counter
  /-- `BUF[s][0..63]`, the pending buffer (R24) -/
  buf : Block
  /-- `OKEY[s][0..63]`, the outer pad key (R25) -/
  okey : Block
  /-- `PHASE[s]` (R26) -/
  phase : Phase
  deriving DecidableEq, Repr

/-- The scratch storage `SCR` (R28). -/
structure Scr where
  /-- `x[0..7]`, the working registers A..H -/
  x : HashState
  /-- `W[0..67]`, the expanded schedule -/
  w : Vector Word 68
  /-- `W1[0..63]`, the second sequence -/
  w1 : Vector Word 64
  ss1 : Word
  tt1 : Word
  tt2 : Word
  /-- `BLK[0..63]`, the block being compressed -/
  blk : Block
  /-- `KB[0..63]`, the normalizedKey -/
  kb : Block
  /-- `PB[0..63]`, the inner pad block -/
  pb : Block
  /-- `DG[0..31]`, a staged digest -/
  dg : Digest
  /-- `T`, the temporary context -/
  t : Slot
  deriving DecidableEq, Repr

/-- The architectural state `(SLOT[0..NCTX-1], SCR, STATUS, CMD_IN, RSP_OUT)` (R20). NCTX is the number of slots
(R9, R21; log entry 1). -/
structure State where
  /-- `SLOT[0..NCTX-1]` (R21) -/
  slots : List Slot
  /-- `SCR` (R28) -/
  scr : Scr
  /-- `STATUS` (R32) -/
  status : BitVec 32
  /-- `CMD_IN`: the bytes supplied and not yet consumed, the front first (R36) -/
  cmdIn : List Byte
  /-- `RSP_OUT`: every byte emitted since reset, the oldest first (R37) -/
  rspOut : List Byte
  deriving DecidableEq, Repr

/-- The faults the spec gives the engine (60_exceptions.md R221). Raising one is a NEXT state (`State.raiseFault`, R224). -/
inductive Cause where
  | illegalCommand
  | badSlot
  | lifecycleFault
  deriving DecidableEq, Repr

/-- Why the engine has NO STEP. Neither reason is a fault of the spec, whose faults are `Cause`: those answer a next state
(log entry 3). -/
inductive Fault where
  /-- Raised by `step` when `STATUS.FAULT = 1`: the engine is halted and has no step until reset (R225). Safe: the spec
  gives no next state. -/
  | halted
  /-- Raised by `step` when CMD_IN holds fewer than four bytes or a proper beginning of an admitted packet: the engine waits
  (R82). Safe: the spec gives no next state until the host sends more. -/
  | waiting
  deriving DecidableEq, Repr

/-- Why a command has no meaning. -/
inductive Refusal where
  /-- Raised by an arm of `exec` whose command is not modelled; no arm raises it now. Safe: nothing is claimed of the command. -/
  | notModelled (mnemonic : String)
  deriving DecidableEq, Repr

/-- The all-zero HashState. -/
def HashState.zero : HashState := ⟨0, 0, 0, 0, 0, 0, 0, 0⟩

/-- The erased slot: every field zero, hence IDLE (45_erasure.md R200, R207). -/
def Slot.erased : Slot :=
  ⟨HashState.zero, 0, Vector.replicate 64 0, Vector.replicate 64 0, .idle⟩

/-- The erased scratch: every member zero (R200, R203). -/
def Scr.erased : Scr where
  x := HashState.zero
  w := Vector.replicate 68 0
  w1 := Vector.replicate 64 0
  ss1 := 0
  tt1 := 0
  tt2 := 0
  blk := Vector.replicate 64 0
  kb := Vector.replicate 64 0
  pb := Vector.replicate 64 0
  dg := Vector.replicate 32 0
  t := Slot.erased

/-- The state right after reset of an engine with `nctx` slots (R41, 70_reset_and_hazards.md R250). -/
def State.resetOf (nctx : Nat) : State where
  slots := List.replicate nctx Slot.erased
  scr := Scr.erased
  status := 0
  cmdIn := []
  rspOut := []

/-- The state right after reset of the instance Config.nctx describes (R41, R250; log entry 1). -/
def State.reset : State := State.resetOf Config.nctx

end Sys2Proof.Machine
end

