-- ==== Sys2Proof/Machine/Compression.lean ====
section
/-! DEFINITION. The message schedule expander and the compression engine (40_compression.md R100 to R119), as functions. -/

namespace Sys2Proof.Machine

/-- The circular left rotation of a word (00_scope.md R11). -/
def rotl (x : Word) (n : Nat) : Word := x.rotateLeft n

/-- Permutation `P0` (R101). -/
def p0 (x : Word) : Word := x ^^^ rotl x 9 ^^^ rotl x 17

/-- Permutation `P1` (R102). -/
def p1 (x : Word) : Word := x ^^^ rotl x 15 ^^^ rotl x 23

/-- Boolean function `FF` of round `j` (R103). -/
def ff (j : Nat) (x y z : Word) : Word :=
  if j ≤ 15 then x ^^^ y ^^^ z else (x &&& y) ||| ((x ||| y) &&& z)

/-- Boolean function `GG` of round `j` (R104). -/
def gg (j : Nat) (x y z : Word) : Word :=
  if j ≤ 15 then x ^^^ y ^^^ z else z ^^^ (x &&& (y ^^^ z))

/-- The base round constant `T(j)` (R105). -/
def baseConstant (j : Nat) : Word := if j ≤ 15 then 0x79CC4519 else 0x7A879D8A

/-- The round constant `K[j] = rotl(T(j), j mod 32)` (R106, 90_conflicts.md C2). -/
def roundConstant (j : Nat) : Word := rotl (baseConstant j) (j % 32)

/-- The first `k` big-endian words of a byte string (R108). -/
def beWords : Nat → List Byte → List Word
  | 0, _ => []
  | k + 1, l => be32 (l.take 4) :: beWords k (l.drop 4)

/-- The next schedule word from the words so far, NEWEST FIRST: `W[i-1]` stands at 0, `W[i-16]` at 15
(R109, 90_conflicts.md C1). -/
def nextScheduleWord (h : List Word) : Word :=
  p1 (h.getD 15 0 ^^^ h.getD 8 0 ^^^ rotl (h.getD 2 0) 15) ^^^ rotl (h.getD 12 0) 7 ^^^ h.getD 5 0

/-- `k` more schedule words in front of the words so far (newest first). -/
def extendSchedule : Nat → List Word → List Word
  | 0, h => h
  | k + 1, h => extendSchedule k (nextScheduleWord h :: h)

/-- `W[0..67]` of a block: 16 words decoded, 52 by the recurrence (R108, R109). -/
def scheduleWords (b : Block) : List Word :=
  (extendSchedule 52 (beWords 16 b.toList).reverse).reverse

/-- `W1[i] = W[i] ^ W[i+4]` for `0 <= i <= 63` (R110). -/
def secondWords (w : List Word) : List Word :=
  (List.range 64).map fun i => w.getD i 0 ^^^ w.getD (i + 4) 0

/-- The result of `Expand`: `W[0..67]` and `W1[0..63]` (R107). -/
structure Schedule where
  w : Vector Word 68
  w1 : Vector Word 64
  deriving DecidableEq, Repr

/-- `Expand(B)` (R111). -/
def expand (b : Block) : Schedule :=
  ⟨padTo 68 0 (scheduleWords b), padTo 64 0 (secondWords (scheduleWords b))⟩

/-- What a round writes: the working registers and the three temporaries (R113). -/
structure RoundRegs where
  x : HashState
  ss1 : Word
  tt1 : Word
  tt2 : Word
  deriving DecidableEq, Repr

/-- Round `j`: all eight registers written at once from the values before the round (R113). -/
def round (sch : Schedule) (r : RoundRegs) (j : Nat) : RoundRegs :=
  let x := r.x
  let ss1 := rotl (rotl x.a 12 + x.e + roundConstant j) 7
  let tt1 := ff j x.a x.b x.c + x.d + (ss1 ^^^ rotl x.a 12) + sch.w1.toList.getD j 0
  let tt2 := gg j x.e x.f x.g + x.h + ss1 + sch.w.toList.getD j 0
  { x := ⟨tt1, x.a, rotl x.b 9, x.c, p0 tt2, x.e, rotl x.f 19, x.g⟩
    ss1 := ss1
    tt1 := tt1
    tt2 := tt2 }

/-- The register load and the 64 rounds in order (R112, R114). -/
def rounds (sch : Schedule) (vin : HashState) : RoundRegs :=
  (List.range 64).foldl (round sch) ⟨vin, 0, 0, 0⟩

/-- The word-wise exclusive-or of two states (R115). -/
def xorState (v x : HashState) : HashState :=
  ⟨v.a ^^^ x.a, v.b ^^^ x.b, v.c ^^^ x.c, v.d ^^^ x.d, v.e ^^^ x.e, v.f ^^^ x.f, v.g ^^^ x.g, v.h ^^^ x.h⟩

/-- The compression function `CF(Vin, B)`, with the feed-forward (R115, R116). -/
def cf (vin : HashState) (b : Block) : HashState := xorState vin (rounds (expand b) vin).x

/-- The compressions of a sequence of blocks, the earliest first (R134, R158). -/
def cfAll (v : HashState) (bs : List Block) : HashState := bs.foldl cf v

/-- The words of a state in the order A to H (20_memory.md R53). -/
def stateWords (v : HashState) : List Word := [v.a, v.b, v.c, v.d, v.e, v.f, v.g, v.h]

/-- The big-endian encoding of a state: bytes `4i .. 4i+3` are `to_be32(V[i])` (R53, 42_finalization.md R155). -/
def stateBytes (v : HashState) : List Byte := (stateWords v).flatMap toBe32

end Sys2Proof.Machine
end

