-- ==== Sys2Proof/Machine/Accumulator.lean ====
section
/-! DEFINITION. The streaming accumulator, padding and finalization, and the HMAC functions, on one slot-shaped record
(41_streaming.md, 42_finalization.md, 44_hmac.md R175 to R177). -/

namespace Sys2Proof.Machine

/-- The initial vector `IV[0..7]` (R130; log entry 9: from general knowledge of the spec's author, confirmed by the four
known-answer vectors). -/
def iv : HashState :=
  ⟨0x7380166F, 0x4914B2B9, 0x172442D7, 0xDA8A0600, 0xA96F30BC, 0x163138AA, 0xE38DEE4D, 0xB0FB0E4E⟩

/-- The record `Init(c)` leaves, whatever `c` was (R131, R132). -/
def initContext : Slot := ⟨iv, 0, blockOf [], blockOf [], .hash⟩

/-- The pending count `r = (N / 8) mod 64` (R135, R12). -/
def pendingCount (c : Slot) : Nat := (c.n.toNat / 8) % 64

/-- The pending bytes `BUF[0..r)` (R24). -/
def pendingBytes (c : Slot) : List Byte := c.buf.toList.take (pendingCount c)

/-- The first `k` consecutive 64-byte blocks of a byte string (R134). -/
def blocks : Nat → List Byte → List Block
  | 0, _ => []
  | k + 1, p => blockOf (p.take 64) :: blocks k (p.drop 64)

/-- The complete blocks of a byte string: `floor(len / 64)` of them (R134). -/
def wholeBlocks (p : List Byte) : List Block := blocks (p.length / 64) p

/-- What is left of a byte string after its complete blocks: `len mod 64` bytes (R134). -/
def leftover (p : List Byte) : List Byte := p.drop (64 * (p.length / 64))

/-- The blocks `Absorb(c, X)` compresses, in order (R134, R138, R142). -/
def absorbBlocks (c : Slot) (x : List Byte) : List Block := wholeBlocks (pendingBytes c ++ x)

/-- `Absorb(c, X)` (R134): the counter wraps modulo 2^64 (R136), the rest of BUF is zero (R138). -/
def absorb (c : Slot) (x : List Byte) : Slot :=
  { c with
    v := cfAll c.v (absorbBlocks c x)
    n := c.n + BitVec.ofNat 64 (8 * x.length)
    buf := blockOf (leftover (pendingBytes c ++ x)) }

/-- The one or two padding blocks of `Finalize(c)` (R151 to R154). -/
def padBlocks (c : Slot) : List Block :=
  if pendingCount c < 56 then
    [blockOf (pendingBytes c ++ [0x80] ++ rep 0 (55 - pendingCount c) ++ toBe64 c.n)]
  else
    [blockOf (pendingBytes c ++ [0x80] ++ rep 0 (63 - pendingCount c)), blockOf (rep 0 56 ++ toBe64 c.n)]

/-- The state `c.V` that `Finalize(c)` leaves (R151). -/
def finalState (c : Slot) : HashState := cfAll c.v (padBlocks c)

/-- The 32 bytes `Finalize(c)` returns (R151, R155). -/
def finalDigest (c : Slot) : Digest := digestOf (stateBytes (finalState c))

/-- `SM3(M) = Finalize(Absorb(Init, M))` (R158). -/
def sm3 (m : List Byte) : Digest := finalDigest (absorb initContext m)

/-- `NormKey(Y)` (R175): a key longer than 64 bytes is replaced by its digest, then zero-padded to 64 bytes. -/
def normKey (y : List Byte) : Block :=
  if 64 < y.length then blockOf ((sm3 y).toList ++ rep 0 32) else blockOf (y ++ rep 0 (64 - y.length))

/-- The inner pad block `NormKey(Y) xor ipad` (R176). -/
def innerPad (y : List Byte) : Block := xorByte (normKey y) 0x36

/-- The outer pad key `NormKey(Y) xor opad` (R176). -/
def outerPad (y : List Byte) : Block := xorByte (normKey y) 0x5c

/-- `HMAC_SM3(Y, M)` (R177). -/
def hmacSm3 (y m : List Byte) : Digest :=
  sm3 ((outerPad y).toList ++ (sm3 ((innerPad y).toList ++ m)).toList)

end Sys2Proof.Machine
end

