-- ==== Sys2Proof/Machine/Flags.lean ====
section
/-! DEFINITION. The two registers of the status port: the fields of STATUS and the value of CAP (10_state.md R32 to R35,
60_exceptions.md R222). The engine has no condition codes: no command computes a flag (R35). -/

namespace Sys2Proof.Machine

/-- The cause code of a fault, the value of STATUS.CAUSE (R222). -/
def causeCode : Cause → BitVec 4
  | .illegalCommand => 1
  | .badSlot => 2
  | .lifecycleFault => 3

/-- `0x00000001 | (cause << 4) | (h1 << 8) | (h0 << 16)`, what the fault entry writes to STATUS (R224). -/
def statusWord (c : Cause) (h0 h1 : Byte) : BitVec 32 :=
  0x00000001 ||| ((causeCode c).zeroExtend 32 <<< 4) ||| (h1.zeroExtend 32 <<< 8) ||| (h0.zeroExtend 32 <<< 16)

/-- STATUS.FAULT, bit 0 (R32). -/
def statusFault (w : BitVec 32) : Bool := w.getLsbD 0

/-- STATUS.CAUSE, bits 7:4 (R32). -/
def statusCause (w : BitVec 32) : BitVec 4 := w.extractLsb' 4 4

/-- STATUS.FSLOT, bits 15:8 (R32). -/
def statusFslot (w : BitVec 32) : Byte := w.extractLsb' 8 8

/-- STATUS.FOP, bits 23:16 (R32). -/
def statusFop (w : BitVec 32) : Byte := w.extractLsb' 16 8

/-- The reserved bits 3:1 and 31:24 of STATUS, together (R32). -/
def statusReserved (w : BitVec 32) : BitVec 11 := w.extractLsb' 24 8 ++ w.extractLsb' 1 3

/-- The number of context slots, NCTX (R9, R21). -/
def State.nctx (s : State) : Nat := s.slots.length

/-- The constant CAP: bits 8:0 hold NCTX, bits 31:9 read as 0 (R34). -/
def State.cap (s : State) : BitVec 32 := (BitVec.ofNat 9 s.nctx).zeroExtend 32

/-- The engine is halted while STATUS.FAULT = 1 (R225). -/
def State.halted (s : State) : Bool := statusFault s.status

end Sys2Proof.Machine
end

