-- ==== Sys2Proof/Machine/Ops.lean ====
section
/-! DEFINITION. The named operations on the state the command rules are written with (00_scope.md R14): contexts, streams,
the compression engine with its scratch, erasure, and the fault entry. -/

namespace Sys2Proof.Machine

/-- Where a slot-shaped record stands: a context slot, or the temporary context `T` in SCR (R21, R28). -/
inductive Ctx where
  | slot (i : Nat)
  | tmp
  deriving DecidableEq, Repr

/-- The contents of `SLOT[i]`. Only slots below NCTX exist (R21); a command reaches no other (R79, R80). -/
def State.slotAt (s : State) (i : Nat) : Slot := s.slots.getD i Slot.erased

/-- Read a context. -/
def State.ctx (s : State) : Ctx → Slot
  | .slot i => s.slotAt i
  | .tmp => s.scr.t

/-- Write a context. -/
def State.setCtx (s : State) (r : Ctx) (c : Slot) : State :=
  match r with
  | .slot i => { s with slots := s.slots.set i c }
  | .tmp => { s with scr := { s.scr with t := c } }

/-- `take(L)`: remove the next `L` bytes of CMD_IN (R14, R38). -/
def State.take (l : Nat) (s : State) : State := { s with cmdIn := s.cmdIn.drop l }

/-- `emit(b)`: append a byte string to RSP_OUT (R14, R37). -/
def State.emit (b : List Byte) (s : State) : State := { s with rspOut := s.rspOut ++ b }

/-- `Erase(SCR)` (45_erasure.md R200, R202). -/
def State.eraseScr (s : State) : State := { s with scr := Scr.erased }

/-- `Erase(SLOT[i])`: every field zero, the slot becomes IDLE (R200, R207). -/
def State.eraseSlot (i : Nat) (s : State) : State := s.setCtx (.slot i) Slot.erased

/-- What one compression of `(v, b)` leaves in SCR: the schedule, the working registers after round 63, the temporaries and
the staged block (R112, R113, R117; log entry 5). -/
def Scr.compress (z : Scr) (v : HashState) (b : Block) : Scr :=
  let sch := expand b
  let r := rounds sch v
  { z with w := sch.w, w1 := sch.w1, x := r.x, ss1 := r.ss1, tt1 := r.tt1, tt2 := r.tt2, blk := b }

/-- What a sequence of compressions, chained by `CF`, leaves in SCR (R117). -/
def Scr.compressAll (z : Scr) (v : HashState) : List Block → Scr
  | [] => z
  | b :: bs => (z.compress v b).compressAll (cf v b) bs

/-- The compression engine runs over `bs` from `v`: the scratch side of it. -/
def State.runBlocks (v : HashState) (bs : List Block) (s : State) : State :=
  { s with scr := s.scr.compressAll v bs }

/-- `Init(c)` at a context (R132). -/
def State.initAt (r : Ctx) (s : State) : State := s.setCtx r initContext

/-- `Absorb(c, X)` at a context (R134). -/
def State.absorbAt (r : Ctx) (x : List Byte) (s : State) : State :=
  let c := s.ctx r
  (s.runBlocks c.v (absorbBlocks c x)).setCtx r (absorb c x)

/-- Stage a digest in SCR.DG. -/
def State.setDg (d : Digest) (s : State) : State := { s with scr := { s.scr with dg := d } }

/-- Stage the normalizedKey in SCR.KB. -/
def State.setKb (b : Block) (s : State) : State := { s with scr := { s.scr with kb := b } }

/-- Stage the inner pad block in SCR.PB. -/
def State.setPb (b : Block) (s : State) : State := { s with scr := { s.scr with pb := b } }

/-- `DG <- Finalize(c)` at a context: `c.V` is overwritten, `c.N` is not changed (R151). -/
def State.finalizeAt (r : Ctx) (s : State) : State :=
  let c := s.ctx r
  ((s.runBlocks c.v (padBlocks c)).setCtx r { c with v := finalState c }).setDg (finalDigest c)

/-- `emit(DG)` (R150). -/
def State.emitDg (s : State) : State := s.emit s.scr.dg.toList

/-- The slot's outer pad key and phase, as HMAC_INIT writes them (R178). -/
def State.primeHmac (i : Nat) (okey : Block) (s : State) : State :=
  s.setCtx (.slot i) { s.slotAt i with okey := okey, phase := .hmac }

/-- `raise Fault(cause)`, TAKING the fault (60_exceptions.md R224): STATUS records cause, `h1` and `h0`; SCR is erased; no
slot changes, nothing is emitted, CMD_IN is not consumed. The engine is then halted (R225); there is no return from a fault
but reset (R226). -/
def State.raiseFault (c : Cause) (h0 h1 : Byte) (s : State) : State :=
  { s with status := statusWord c h0 h1, scr := Scr.erased }

end Sys2Proof.Machine
end

