-- ==== Sys2Proof/Machine/Operands.lean ====
section
/-! DEFINITION. The slot operand and the lifecycle check of a command (30_encoding.md R80 steps 3 and 4), how a command's rule
runs on its operands, and the decode step as a whole (R80). -/

namespace Sys2Proof.Machine

/-- The phase a command requires of its slot; none where it is legal in every phase (60_exceptions.md R221, R235). -/
def requiredPhase : Opcode → Option Phase
  | .init => none
  | .update => some .hash
  | .final => some .hash
  | .hash => none
  | .buf => none
  | .hmacInit => none
  | .hmacUpdate => some .hmac
  | .hmacFinal => some .hmac
  | .hmac => none
  | .hmacBuf => none

/-- Whether a slot in phase `p` may take the command (R235). -/
def phaseAllows (op : Opcode) (p : Phase) : Bool :=
  match requiredPhase op with
  | none => true
  | some q => p == q

/-- The fault a command with SLOT byte `h1` raises in state `s`, BadSlot before LifecycleFault (R80 steps 3 and 4, R221,
R223); none where it is admitted. -/
def headerFault (op : Opcode) (h1 : Byte) (s : State) : Option Cause :=
  if opcodeNamesSlot op then
    if s.nctx ≤ h1.toNat then some .badSlot
    else if phaseAllows op (s.slotAt h1.toNat).phase then none
    else some .lifecycleFault
  else none

/-- One command as one atomic step (R80 step 6, 20_memory.md R58): raise the fault of its header, the packet left in place;
else consume the packet's `len` bytes and apply the rule `body`. -/
def runCommand (op : Opcode) (h1 : Byte) (len : Nat) (body : State → State) (s : State) :
    Host.Outcome State Fault Refusal :=
  match headerFault op h1 s with
  | some c => .next (s.raiseFault c (opcodeByte op) h1)
  | none => .next (body (s.take len))

/-- The result of looking at the front of CMD_IN at a command boundary (R80). -/
inductive Fetched where
  /-- STATUS.FAULT = 1: no step (R225) -/
  | halted
  /-- not enough bytes: no step (R80 steps 1 and 5, R82) -/
  | waiting
  /-- the header faults (R80 steps 2 to 4) -/
  | raise (c : Cause) (h0 h1 : Byte)
  /-- a whole packet of an admitted command -/
  | run (i : Instr)
  deriving DecidableEq, Repr

/-- The decode step (R80). A fault of the header is found before the rest of the packet is looked at. -/
def fetch (s : State) : Fetched :=
  if s.halted then .halted
  else
    match decodeHeader s.cmdIn with
    | .short => .waiting
    | .illegal h0 h1 => .raise .illegalCommand h0 h1
    | .command op h1 body =>
      match headerFault op h1 s with
      | some c => .raise c (opcodeByte op) h1
      | none =>
        match decodeBody op h1 body with
        | .packet i _ => .run i
        | .incomplete => .waiting
        | .illegal h0' h1' => .raise .illegalCommand h0' h1'

/-- Put the packet that table word `w` begins at the front of CMD_IN: exactly the bytes the decoder reads as one packet, or
all the bytes laid out where it reads none (host interface; log entry 8). -/
def placeWord (s : State) (nbits w : Nat) : State :=
  let bytes := tableBytes nbits w
  match decode bytes with
  | .packet _ rest => { s with cmdIn := bytes.take (bytes.length - rest.length) ++ s.cmdIn }
  | .illegal _ _ => { s with cmdIn := bytes ++ s.cmdIn }
  | .incomplete => { s with cmdIn := bytes ++ s.cmdIn }

end Sys2Proof.Machine
end

