-- ==== Sys2Proof/Machine/Hash.lean ====
section
/-! DEFINITION. The meanings of the five hash commands: INIT and UPDATE (41_streaming.md), FINAL (42_finalization.md), HASH
and BUF (43_oneshot.md). Each command's rule is a body on the state; its meaning runs that body as one command. -/

namespace Sys2Proof.Machine

/-- The step of INIT (R131): all five fields of the slot are written. -/
def State.initBody (i : Nat) (s : State) : State := (s.initAt (.slot i)).eraseScr

/-- The step of UPDATE (R133). -/
def State.updateBody (i : Nat) (x : List Byte) (s : State) : State := (s.absorbAt (.slot i) x).eraseScr

/-- The step of FINAL (R150, R156). -/
def State.finalBody (i : Nat) (s : State) : State :=
  ((s.finalizeAt (.slot i)).emitDg.eraseSlot i).eraseScr

/-- The step of HASH (R165). -/
def State.hashBody (i : Nat) (x : List Byte) (s : State) : State :=
  let s := s.initAt (.slot i)
  let s := s.absorbAt (.slot i) x
  let s := s.finalizeAt (.slot i)
  (s.emitDg.eraseSlot i).eraseScr

/-- The step of BUF (R166), on the temporary context. -/
def State.bufBody (x : List Byte) (s : State) : State :=
  let s := s.initAt .tmp
  let s := s.absorbAt .tmp x
  let s := s.finalizeAt .tmp
  s.emitDg.eraseScr

/-- INIT (R131): legal in every phase. -/
def execInit (slot : Byte) (s : State) : Host.Outcome State Fault Refusal :=
  runCommand .init slot (packetLength (.init slot)) (State.initBody slot.toNat) s

/-- UPDATE (R133): the slot must be in phase HASH. -/
def execUpdate (slot : Byte) (data : List Byte) (s : State) : Host.Outcome State Fault Refusal :=
  runCommand .update slot (packetLength (.update slot data)) (State.updateBody slot.toNat data) s

/-- FINAL (R150): the slot must be in phase HASH. -/
def execFinal (slot : Byte) (s : State) : Host.Outcome State Fault Refusal :=
  runCommand .final slot (packetLength (.final slot)) (State.finalBody slot.toNat) s

/-- HASH (R165): legal in every phase; the slot ends erased. -/
def execHash (slot : Byte) (data : List Byte) (s : State) : Host.Outcome State Fault Refusal :=
  runCommand .hash slot (packetLength (.hash slot data)) (State.hashBody slot.toNat data) s

/-- BUF (R166): no slot is read or written. -/
def execBuf (data : List Byte) (s : State) : Host.Outcome State Fault Refusal :=
  runCommand .buf 0 (packetLength (.buf data)) (State.bufBody data) s

end Sys2Proof.Machine
end

