-- ==== Sys2Proof/Machine/Hmac.lean ====
section
/-! DEFINITION. The meanings of the five HMAC commands (44_hmac.md R178 to R182), over the key normalizer and the outer hash as
operations on the state. -/

namespace Sys2Proof.Machine

/-- `KB <- NormKey(Y)` (R175): a long key is hashed in `T`, its digest staged in `DG`. -/
def State.normKeyToKb (y : List Byte) (s : State) : State :=
  if 64 < y.length then
    let s := ((s.initAt .tmp).absorbAt .tmp y).finalizeAt .tmp
    s.setKb (blockOf (s.scr.dg.toList ++ rep 0 32))
  else s.setKb (blockOf (y ++ rep 0 (64 - y.length)))

/-- `PB <- KB xor ipad` (R176, R178). -/
def State.padToPb (s : State) : State := s.setPb (xorByte s.scr.kb 0x36)

/-- `DG <- H(okey || DG)`: the outer hash, in `T` (R177, R180). -/
def State.outerHash (okey : Block) (s : State) : State :=
  let d := s.scr.dg.toList
  (((s.initAt .tmp).absorbAt .tmp okey.toList).absorbAt .tmp d).finalizeAt .tmp

/-- The step of HMAC_INIT (R178). -/
def State.hmacInitBody (i : Nat) (y : List Byte) (s : State) : State :=
  let s := (s.normKeyToKb y).padToPb
  let s := (s.initAt (.slot i)).absorbAt (.slot i) s.scr.pb.toList
  (s.primeHmac i (xorByte s.scr.kb 0x5c)).eraseScr

/-- The step of HMAC_UPDATE (R179). -/
def State.hmacUpdateBody (i : Nat) (x : List Byte) (s : State) : State :=
  (s.absorbAt (.slot i) x).eraseScr

/-- The step of HMAC_FINAL (R180). -/
def State.hmacFinalBody (i : Nat) (s : State) : State :=
  let s := s.finalizeAt (.slot i)
  let s := s.outerHash (s.slotAt i).okey
  (s.emitDg.eraseSlot i).eraseScr

/-- The step of HMAC (R181): the steps of HMAC_INIT, HMAC_UPDATE and HMAC_FINAL, one after the other. -/
def State.hmacBody (i : Nat) (x y : List Byte) (s : State) : State :=
  ((s.hmacInitBody i y).hmacUpdateBody i x).hmacFinalBody i

/-- The step of HMAC_BUF (R182): `HMAC_SM3(Y, X)` computed in SCR alone. -/
def State.hmacBufBody (x y : List Byte) (s : State) : State :=
  let s := (s.normKeyToKb y).padToPb
  let s := (s.initAt .tmp).absorbAt .tmp s.scr.pb.toList
  let s := (s.absorbAt .tmp x).finalizeAt .tmp
  (s.outerHash (xorByte s.scr.kb 0x5c)).emitDg.eraseScr

/-- HMAC_INIT (R178): legal in every phase. -/
def execHmacInit (slot : Byte) (key : List Byte) (s : State) : Host.Outcome State Fault Refusal :=
  runCommand .hmacInit slot (packetLength (.hmacInit slot key)) (State.hmacInitBody slot.toNat key) s

/-- HMAC_UPDATE (R179): the slot must be in phase HMAC. -/
def execHmacUpdate (slot : Byte) (data : List Byte) (s : State) : Host.Outcome State Fault Refusal :=
  runCommand .hmacUpdate slot (packetLength (.hmacUpdate slot data)) (State.hmacUpdateBody slot.toNat data) s

/-- HMAC_FINAL (R180): the slot must be in phase HMAC; it emits the MAC and ends erased. -/
def execHmacFinal (slot : Byte) (s : State) : Host.Outcome State Fault Refusal :=
  runCommand .hmacFinal slot (packetLength (.hmacFinal slot)) (State.hmacFinalBody slot.toNat) s

/-- HMAC (R181): one step; legal in every phase. -/
def execHmac (slot : Byte) (data key : List Byte) (s : State) : Host.Outcome State Fault Refusal :=
  runCommand .hmac slot (packetLength (.hmac slot data key)) (State.hmacBody slot.toNat data key) s

/-- HMAC_BUF (R182): no slot is read or written. -/
def execHmacBuf (data key : List Byte) (s : State) : Host.Outcome State Fault Refusal :=
  runCommand .hmacBuf 0 (packetLength (.hmacBuf data key)) (State.hmacBufBody data key) s

end Sys2Proof.Machine
end

