-- ==== Sys2Proof/Machine/Dispatch.lean ====
section
/-! DEFINITION. The dispatch: one arm per constructor of Instr, each a direct call of that command's meaning. -/

namespace Sys2Proof.Machine

/-- The command `i` in state `s`: its fault entry, or its packet consumed and its rule applied (30_encoding.md R80 steps 3, 4, 6). -/
def exec (i : Instr) (s : State) : Host.Outcome State Fault Refusal :=
  match i with
  | .init slot => Sys2Proof.Machine.execInit slot s
  | .update slot data => Sys2Proof.Machine.execUpdate slot data s
  | .final slot => Sys2Proof.Machine.execFinal slot s
  | .hash slot data => Sys2Proof.Machine.execHash slot data s
  | .buf data => Sys2Proof.Machine.execBuf data s
  | .hmacInit slot key => Sys2Proof.Machine.execHmacInit slot key s
  | .hmacUpdate slot data => Sys2Proof.Machine.execHmacUpdate slot data s
  | .hmacFinal slot => Sys2Proof.Machine.execHmacFinal slot s
  | .hmac slot data key => Sys2Proof.Machine.execHmac slot data key s
  | .hmacBuf data key => Sys2Proof.Machine.execHmacBuf data key s

end Sys2Proof.Machine
end

