-- ==== Sys2Proof/Machine/Step.lean ====
section
/-! DEFINITION. One step of the engine at a command boundary (30_encoding.md R80), and where a table word is placed for the
next step. -/

namespace Sys2Proof.Machine

/-- One step (R80): no step while halted or waiting, the fault entry for a header that faults, else the whole packet's
command. -/
def step (s : State) : Host.Outcome State Fault Refusal :=
  match fetch s with
  | .halted => .fault .halted
  | .waiting => .fault .waiting
  | .raise c h0 h1 => .next (s.raiseFault c h0 h1)
  | .run i => exec i s

/-- `s` with the packet that table word `w` begins at the front of CMD_IN, where `step` fetches (host interface; log entry 8). -/
def State.withFetchWord (s : State) (nbits w : Nat) : State := placeWord s nbits w

end Sys2Proof.Machine
end

