-- ==== Sys2Proof/Machine/Text.lean ====
section
/-! DEFINITION. The text form of a command, one command a line (30_encoding.md R83): operands are printed as hex literals. -/

namespace Sys2Proof.Machine

/-- The hex digit of a number below 16. -/
def hexDigit (n : Nat) : Char := ("0123456789abcdef".toList).getD n '0'

/-- The two hex digits of a byte. -/
def hexByte (b : Byte) : List Char := [hexDigit (b.toNat / 16), hexDigit (b.toNat % 16)]

/-- An operand: `""` when empty, else `x"<hex digits>"`, lowest offset first (R83). -/
def operandText (x : List Byte) : String :=
  if x.isEmpty then "\"\"" else "x\"" ++ String.ofList (x.flatMap hexByte) ++ "\""

/-- A slot number in decimal (R83). -/
def slotText (slot : Byte) : String := toString slot.toNat

/-- The text form of a command (R83). -/
def instrText : Instr → String
  | .init s => "INIT " ++ slotText s
  | .update s x => "UPDATE " ++ slotText s ++ ", " ++ operandText x
  | .final s => "FINAL " ++ slotText s
  | .hash s x => "HASH " ++ slotText s ++ ", " ++ operandText x
  | .buf x => "BUF " ++ operandText x
  | .hmacInit s y => "HMAC_INIT " ++ slotText s ++ ", " ++ operandText y
  | .hmacUpdate s x => "HMAC_UPDATE " ++ slotText s ++ ", " ++ operandText x
  | .hmacFinal s => "HMAC_FINAL " ++ slotText s
  | .hmac s x y => "HMAC " ++ slotText s ++ ", " ++ operandText x ++ ", " ++ operandText y
  | .hmacBuf x y => "HMAC_BUF " ++ operandText x ++ ", " ++ operandText y

end Sys2Proof.Machine
end

