-- ==== Sys2Proof/Machine/Port.lean ====
section
/-! DEFINITION. What the host can do and see at a command boundary (10_state.md R33, R36, R37, R39, 70_reset_and_hazards.md
R250, R251, R264): the status port, the slot image, the command stream and reset; and the engine and the host as one system. -/

namespace Sys2Proof.Machine

/-- The byte of a lifecycle tag: 0 IDLE, 1 HASH, 2 HMAC (R26). -/
def phaseByte : Phase → Byte
  | .idle => 0
  | .hash => 1
  | .hmac => 2

/-- The 176-byte image of a slot (R39). -/
def slotImage (c : Slot) : List Byte :=
  stateBytes c.v ++ toBe64 c.n ++ c.buf.toList ++ c.okey.toList ++ [phaseByte c.phase] ++ rep 0 7

/-- The image the introspection port gives for slot number `i`; none where the slot does not exist (R39, R60). -/
def State.image (s : State) (i : Nat) : Option (List Byte) := (s.slots[i]?).map slotImage

/-- A read of the status port: register 0 is STATUS, register 1 is CAP; there is no other (R33). -/
def State.readReg (s : State) (n : Nat) : Option (BitVec 32) :=
  match n with
  | 0 => some s.status
  | 1 => some s.cap
  | _ => none

/-- What the host can do to the engine (R16, R33, R36, R250, R264). -/
inductive HostAction where
  /-- supply bytes to CMD_IN (R36) -/
  | send (bytes : List Byte)
  /-- write register number `n` of the status port (R33) -/
  | writeReg (n : Nat) (v : BitVec 32)
  /-- assert reset (R250, R251) -/
  | reset
  deriving DecidableEq, Repr

/-- The effect of a host action at a command boundary: bytes are appended to CMD_IN, a register write is ignored, reset gives
the reset state of the same number of slots. It happens in any state, halted or with a packet partly delivered (R225, R251). -/
def hostAct (s : State) : HostAction → State
  | .send bytes => { s with cmdIn := s.cmdIn ++ bytes }
  | .writeReg _ _ => s
  | .reset => State.resetOf s.nctx

/-- The next state of an outcome, if it has one. -/
def nextState? : Host.Outcome State Fault Refusal → Option State
  | .next t => some t
  | .fault _ => none
  | .refused _ => none

/-- One move of the system of host and engine from `s` to `t`: a step of the engine, or a host action (R16, R264). -/
inductive Moves : State → State → Prop where
  | engine (s t : State) (h : step s = .next t) : Moves s t
  | host (s : State) (a : HostAction) : Moves s (hostAct s a)

/-- The states an engine with `nctx` slots can be in, whatever the host does from reset on (R16, R250, R264). -/
inductive Reachable (nctx : Nat) : State → Prop where
  | reset : Reachable nctx (State.resetOf nctx)
  | move (s t : State) (hs : Reachable nctx s) (h : Moves s t) : Reachable nctx t

end Sys2Proof.Machine
end

