-- ==== Sys2Proof/Safety.lean ====
section
/-! DEFINITION. How a run ends (70_reset_and_hazards.md R265), the invariants of a command boundary (10_state.md R27, R29, R32),
the lifecycle table (60_exceptions.md R235), and the blocks a
command compresses (70 R263), in the terms the statements use. -/

namespace Sys2Proof.Machine

/-- The run has ended well: CMD_IN is empty and STATUS.FAULT = 0 (R265). -/
def EndedWell (s : State) : Prop := s.cmdIn = [] ∧ s.halted = false

/-- The run has ended badly: STATUS.FAULT = 1 (R265). -/
def EndedBadly (s : State) : Prop := s.halted = true

/-- The run is stuck (R265, R82): STATUS.FAULT = 0, and CMD_IN holds one, two or three bytes, or a proper beginning of the
packet of a well-formed command whose header is admitted. -/
def Stuck (s : State) : Prop :=
  s.halted = false ∧ s.cmdIn ≠ [] ∧
    (s.cmdIn.length < 4 ∨ ∃ (i : Instr) (missing : List Byte), WellFormed i ∧
      headerFault (instrOpcode i) (instrSlotByte i) s = none ∧ missing ≠ [] ∧ s.cmdIn ++ missing = encode i)

/-- The invariants of one slot at a command boundary (R27 items 1, 2 and 4; item 5 holds by the type `Phase`; item 3 speaks
of the slot's history and is a statement of its own). -/
def SlotInv (c : Slot) : Prop :=
  (c.phase = .idle → c = Slot.erased) ∧
  (c.phase = .hash → c.okey = blockOf []) ∧
  c.n.toNat % 8 = 0 ∧
  c.buf.toList.drop (pendingCount c) = rep 0 (64 - pendingCount c)

/-- STATUS is 0, or records a fault of the packet whose first two bytes still stand at the front of CMD_IN (R32, R224). -/
def StatusInv (s : State) : Prop :=
  s.status = 0 ∨
    ∃ (c : Cause) (h0 h1 : Byte) (rest : List Byte),
      s.status = statusWord c h0 h1 ∧ s.cmdIn = h0 :: h1 :: rest

/-- The invariant of the engine at a command boundary: a legal number of slots, every slot's invariant, SCR erased (R29),
STATUS as the fault entry or reset left it, RSP_OUT made of whole responses (R37). -/
def State.Inv (s : State) : Prop :=
  Config.LegalNctx s.nctx ∧ (∀ c ∈ s.slots, SlotInv c) ∧ s.scr = Scr.erased ∧ StatusInv s ∧ s.rspOut.length % 32 = 0

/-- The table of R235: the phase of the named slot after the command, by the phase before; none for LifecycleFault. -/
def lifecycleTable : Opcode → Phase → Option Phase
  | .init, _ => some .hash
  | .update, .hash => some .hash
  | .update, _ => none
  | .final, .hash => some .idle
  | .final, _ => none
  | .hash, _ => some .idle
  | .hmacInit, _ => some .hmac
  | .hmacUpdate, .hmac => some .hmac
  | .hmacUpdate, _ => none
  | .hmacFinal, .hmac => some .idle
  | .hmacFinal, _ => none
  | .hmac, _ => some .idle
  | .buf, p => some p
  | .hmacBuf, p => some p

/-- The blocks the hash of `m` from a fresh context compresses, in order (R158). -/
def hashBlocks (m : List Byte) : List Block := absorbBlocks initContext m ++ padBlocks (absorb initContext m)

/-- The blocks HMAC_INIT compresses: those of a long key's hash, then the inner pad block (R175, R178). -/
def hmacInitBlocks (y : List Byte) : List Block := (if 64 < y.length then hashBlocks y else []) ++ [innerPad y]

/-- The blocks HMAC_FINAL compresses on a slot that holds `c`: the inner padding, then the outer hash (R180). -/
def hmacFinalBlocks (c : Slot) : List Block := padBlocks c ++ hashBlocks (c.okey.toList ++ stateBytes (finalState c))

/-- The blocks a command compresses, in order, on a slot that holds `c` (70_reset_and_hazards.md R263). -/
def commandBlocks : Instr → Slot → List Block
  | .init _, _ => []
  | .update _ x, c => absorbBlocks c x
  | .final _, c => padBlocks c
  | .hash _ x, _ => hashBlocks x
  | .buf x, _ => hashBlocks x
  | .hmacInit _ y, _ => hmacInitBlocks y
  | .hmacUpdate _ x, c => absorbBlocks c x
  | .hmacFinal _, c => hmacFinalBlocks c
  | .hmac _ x y, _ =>
    let c : Slot := ⟨cf iv (innerPad y), 512, blockOf [], outerPad y, .hmac⟩
    hmacInitBlocks y ++ absorbBlocks c x ++ hmacFinalBlocks (absorb c x)
  | .hmacBuf x y, _ =>
    let c : Slot := ⟨cf iv (innerPad y), 512, blockOf [], outerPad y, .hmac⟩
    hmacInitBlocks y ++ absorbBlocks c x ++ hmacFinalBlocks (absorb c x)

/-- How an HMAC ends, in blocks (R180): the first `k` of `bs` fold from `v` to the inner digest, the other two are `okey` and
the padded block of the inner digest (96 bytes, hence 768 bits), and those two fold from IV to `mac`. -/
def OuterFold (v : HashState) (okey : List Byte) (bs : List Block) (k : Nat) (mac : List Byte) : Prop :=
  (bs.drop k).map Vector.toList =
    [okey, stateBytes (cfAll v (bs.take k)) ++ [0x80] ++ List.replicate 23 0 ++ toBe64 768] ∧
  mac = stateBytes (cfAll iv (bs.drop k))

/-- The packets of a sequence of commands, one after the other with no gap (R70). -/
def packets (is : List Instr) : List Byte := is.flatMap encode

/-- `n` steps of the engine, from a state whose CMD_IN is given. -/
def runOn (n : Nat) (s : State) (cmdIn : List Byte) : Host.Outcome State Fault Refusal :=
  Sys2Proof.core.run n { s with cmdIn := cmdIn }

end Sys2Proof.Machine
end

