-- ==== Sys2Proof/Certificates/Slice0/Obligations.lean ====
section
/-! DEFINITION. The statements for the provers, each with the rule of spec/ it formalises. -/

open Sys2Proof Sys2Proof.Machine

/-! ## Encoding (30_encoding.md) -/

/-- R71 to R77, R81: every well-formed command's packet, with anything after it, decodes to that command and leaves exactly
what came after. -/
def Obligations.DecodeEncodeRoundTrip : Prop :=
  ∀ (i : Instr) (rest : List Byte), WellFormed i → decode (encode i ++ rest) = .packet i rest

/-- R71 to R77, R81, the other direction: whatever decodes as a packet is the packet of a well-formed command followed by the
bytes the decoder hands back, so each command has one packet and each packet one meaning. -/
def Obligations.EncodeDecodeRoundTrip : Prop :=
  ∀ (bytes : List Byte) (i : Instr) (rest : List Byte),
    decode bytes = .packet i rest → WellFormed i ∧ bytes = encode i ++ rest

/-- Packets of 95_test_vectors.md section 8 and of 30_encoding.md section 6, of every format and both families; then, for
each of the ten rows of the opcode table, one word of its pattern with length fields of zeros, and two words of no row: an
illegal opcode and BUF with a SLOT byte. How a table word is laid out as bytes is the model's choice (log entry 8). -/
def Obligations.DecodeKnownPackets : Prop :=
  decode [0x01, 0x01, 0, 0] = .packet (.init 1) [] ∧
  decode [0x02, 0, 0, 0, 0, 0, 0, 0, 0, 0, 0, 1, 0x61] = .packet (.update 0 [0x61]) [] ∧
  decode [0x05, 0, 0, 0, 0, 0, 0, 0, 0, 0, 0, 3, 0x61, 0x62, 0x63] = .packet (.buf [0x61, 0x62, 0x63]) [] ∧
  decode [0x13, 0x01, 0, 0] = .packet (.hmacFinal 1) [] ∧
  decode [0x15, 0, 0, 0, 0, 0, 0, 0, 0, 0, 0, 2, 0, 0, 0, 0, 0, 0, 0, 1, 0x48, 0x69, 0x6b] =
    .packet (.hmacBuf [0x48, 0x69] [0x6b]) [] ∧
  decodeTableWord 32 0x01000000 = some (.init 0) ∧
  decodeTableWord 32 0x02010000 = some (.update 1 []) ∧
  decodeTableWord 32 0x03ff0000 = some (.final 255) ∧
  decodeTableWord 32 0x04070000 = some (.hash 7 []) ∧
  decodeTableWord 32 0x05000000 = some (.buf []) ∧
  decodeTableWord 32 0x11000000 = some (.hmacInit 0 []) ∧
  decodeTableWord 32 0x12800000 = some (.hmacUpdate 128 []) ∧
  decodeTableWord 32 0x13010000 = some (.hmacFinal 1) ∧
  decodeTableWord 32 0x14010000 = some (.hmac 1 [] []) ∧
  decodeTableWord 32 0x15000000 = some (.hmacBuf [] []) ∧
  decodeTableWord 32 0x00000000 = none ∧
  decodeTableWord 32 0x05010000 = none

/-- R73 to R76: the packet layouts, byte for byte: header, big-endian length fields, operands. -/
def Obligations.PacketLayouts : Prop :=
  ∀ (s : Byte) (x y : List Byte),
    encode (.init s) = [0x01, s, 0, 0] ∧
    encode (.update s x) = [0x02, s, 0, 0] ++ toBe64 (BitVec.ofNat 64 x.length) ++ x ∧
    encode (.final s) = [0x03, s, 0, 0] ∧
    encode (.hash s x) = [0x04, s, 0, 0] ++ toBe64 (BitVec.ofNat 64 x.length) ++ x ∧
    encode (.buf x) = [0x05, 0, 0, 0] ++ toBe64 (BitVec.ofNat 64 x.length) ++ x ∧
    encode (.hmacInit s y) = [0x11, s, 0, 0] ++ toBe64 (BitVec.ofNat 64 y.length) ++ y ∧
    encode (.hmacUpdate s x) = [0x12, s, 0, 0] ++ toBe64 (BitVec.ofNat 64 x.length) ++ x ∧
    encode (.hmacFinal s) = [0x13, s, 0, 0] ∧
    encode (.hmac s x y) = [0x14, s, 0, 0] ++ toBe64 (BitVec.ofNat 64 x.length) ++
      toBe64 (BitVec.ofNat 64 y.length) ++ x ++ y ∧
    encode (.hmacBuf x y) = [0x15, 0, 0, 0] ++ toBe64 (BitVec.ofNat 64 x.length) ++
      toBe64 (BitVec.ofNat 64 y.length) ++ x ++ y

/-! ## The decode step, faults and the end of a run (30_encoding.md R80 to R82, 60_exceptions.md, 70 R265) -/

/-- R80: at a boundary of an engine that is not halted, a whole packet at the front of CMD_IN makes the step that packet's
`exec`, faults of the header included. The step adds nothing around `exec`: the meaning itself consumes the packet. -/
def Obligations.StepRunsDecodedInstruction : Prop :=
  ∀ (s : State) (i : Instr) (rest : List Byte),
    s.halted = false → decode s.cmdIn = .packet i rest → step s = exec i s

/-- R225: a halted engine has no step, whatever the host appends to CMD_IN; the form in which the model says so, the fault
`halted`, is its own choice (log entry 3). -/
def Obligations.HaltedEngineHasNoStep : Prop :=
  ∀ (s : State) (bytes : List Byte), s.halted = true →
    step s = .fault .halted ∧ step (hostAct s (.send bytes)) = .fault .halted

/-- R82: with fewer than four bytes, or a proper beginning of a packet whose header is admitted, the engine has no step; once
the host has sent the rest of the packet the step is that command. -/
def Obligations.IncompletePacketWaits : Prop :=
  ∀ (s : State), s.halted = false →
    (s.cmdIn.length < 4 → ∀ t : State, step s ≠ .next t) ∧
    ∀ (i : Instr) (missing : List Byte), WellFormed i →
      headerFault (instrOpcode i) (instrSlotByte i) s = none →
      missing ≠ [] → encode i = s.cmdIn ++ missing →
      (∀ t : State, step s ≠ .next t) ∧ step (hostAct s (.send missing)) = exec i (hostAct s (.send missing))

/-- R78, R79, R221, R224: an illegal opcode, a reserved byte that is not zero, or BUF or HMAC_BUF with a SLOT byte that is not
zero takes IllegalCommand: STATUS is written, SCR erased, nothing else changes, however few bytes follow the header. -/
def Obligations.IllegalCommandIsTaken : Prop :=
  ∀ (s : State) (h0 h1 h2 h3 : Byte) (rest : List Byte),
    s.halted = false → s.cmdIn = h0 :: h1 :: h2 :: h3 :: rest →
    (h0 ∉ ([0x01, 0x02, 0x03, 0x04, 0x05, 0x11, 0x12, 0x13, 0x14, 0x15] : List Byte) ∨ h2 ≠ 0 ∨ h3 ≠ 0 ∨
      ((h0 = 0x05 ∨ h0 = 0x15) ∧ h1 ≠ 0)) →
    step s = .next { s with
      status := 0x00000001 ||| (1 <<< 4) ||| (h1.zeroExtend 32 <<< 8) ||| (h0.zeroExtend 32 <<< 16)
      scr := Scr.erased }

/-- R79, R221, R223, R224: a legal header of one of the eight slot commands whose SLOT byte is NCTX or more takes BadSlot. -/
def Obligations.BadSlotIsTaken : Prop :=
  ∀ (s : State) (h0 h1 : Byte) (rest : List Byte),
    s.halted = false → s.cmdIn = h0 :: h1 :: 0 :: 0 :: rest →
    h0 ∈ ([0x01, 0x02, 0x03, 0x04, 0x11, 0x12, 0x13, 0x14] : List Byte) → s.nctx ≤ h1.toNat →
    step s = .next { s with
      status := 0x00000001 ||| (2 <<< 4) ||| (h1.zeroExtend 32 <<< 8) ||| (h0.zeroExtend 32 <<< 16)
      scr := Scr.erased }

/-- R221, R223, R224: UPDATE or FINAL on a slot not in phase HASH, HMAC_UPDATE or HMAC_FINAL on a slot not in phase HMAC,
takes LifecycleFault. -/
def Obligations.LifecycleFaultIsTaken : Prop :=
  ∀ (s : State) (h0 h1 : Byte) (rest : List Byte),
    s.halted = false → s.cmdIn = h0 :: h1 :: 0 :: 0 :: rest → h1.toNat < s.nctx →
    (((h0 = 0x02 ∨ h0 = 0x03) ∧ (s.slotAt h1.toNat).phase ≠ .hash) ∨
      ((h0 = 0x12 ∨ h0 = 0x13) ∧ (s.slotAt h1.toNat).phase ≠ .hmac)) →
    step s = .next { s with
      status := 0x00000001 ||| (3 <<< 4) ||| (h1.zeroExtend 32 <<< 8) ||| (h0.zeroExtend 32 <<< 16)
      scr := Scr.erased }

/-- R32, R222: the fields of the STATUS word a fault writes. -/
def Obligations.StatusWordFields : Prop :=
  ∀ (c : Cause) (h0 h1 : Byte),
    statusFault (statusWord c h0 h1) = true ∧
    statusCause (statusWord c h0 h1) =
      (match c with
        | .illegalCommand => 1
        | .badSlot => 2
        | .lifecycleFault => 3) ∧
    statusFslot (statusWord c h0 h1) = h1 ∧
    statusFop (statusWord c h0 h1) = h0 ∧
    statusReserved (statusWord c h0 h1) = 0

/-- R38, R62, R80, R224: what a step can do, all of it: run one whole admitted packet and consume exactly that packet, STATUS
untouched, or take a fault that changes STATUS and erases SCR and nothing else. -/
def Obligations.StepConsumesOnePacketOrFaults : Prop :=
  ∀ (s t : State), step s = .next t →
    (∃ (i : Instr) (rest : List Byte), WellFormed i ∧ s.cmdIn = encode i ++ rest ∧
      headerFault (instrOpcode i) (instrSlotByte i) s = none ∧ exec i s = .next t ∧
      t.cmdIn = rest ∧ t.status = s.status) ∨
    (∃ (c : Cause) (h0 h1 : Byte) (rest : List Byte), s.cmdIn = h0 :: h1 :: rest ∧
      t = { s with status := statusWord c h0 h1, scr := Scr.erased })

/-- R262 (the fairness sentence) and 93 Part 1: an engine that is not halted, with a whole packet at the front of CMD_IN, has
a step. -/
def Obligations.WholePacketAlwaysSteps : Prop :=
  ∀ (s : State) (i : Instr) (rest : List Byte), s.halted = false → WellFormed i →
    s.cmdIn = encode i ++ rest → ∃ t : State, step s = .next t

/-- R265, R82, R225: where the engine has no step, the run has ended well, ended badly or is stuck, and only one of the three;
and in each of the three it has no step. `Stuck` speaks of the bytes on CMD_IN. That "no step" is an answer that is not next is
the model's choice of form (log entry 3). -/
def Obligations.NoStepMeansEndedOrStuck : Prop :=
  (∀ s : State, (∀ t : State, step s ≠ .next t) →
    (EndedWell s ∧ ¬ EndedBadly s ∧ ¬ Stuck s) ∨ (¬ EndedWell s ∧ EndedBadly s ∧ ¬ Stuck s) ∨
      (¬ EndedWell s ∧ ¬ EndedBadly s ∧ Stuck s)) ∧
  (∀ s : State, EndedWell s ∨ EndedBadly s ∨ Stuck s → ∀ t : State, step s ≠ .next t)

/-- R225, R226: once halted, an engine stays halted with the same STATUS, slots and responses under every move of engine or
host but reset. -/
def Obligations.OnlyResetLeavesTheHalt : Prop :=
  ∀ (s t : State), s.halted = true → Moves s t →
    t = State.resetOf s.nctx ∨
      (t.halted = true ∧ t.status = s.status ∧ t.slots = s.slots ∧ t.rspOut = s.rspOut ∧
        ∃ more : List Byte, t.cmdIn = s.cmdIn ++ more)

/-! ## The ten commands (41, 42, 43, 44)

`exec` is a command's meaning with its packet at the front of CMD_IN, and consumes as many bytes as that packet has; in a state
whose CMD_IN begins otherwise that is the model's reading (log entry 4), which no run sees. -/

/-- R131: INIT, in every phase of the slot, and BadSlot for a slot that does not exist. -/
def Obligations.InitResult : Prop :=
  ∀ (slot : Byte) (s : State),
    (slot.toNat < s.nctx →
      exec (.init slot) s = .next { s with
        slots := s.slots.set slot.toNat
          { v := ⟨0x7380166F, 0x4914B2B9, 0x172442D7, 0xDA8A0600, 0xA96F30BC, 0x163138AA, 0xE38DEE4D, 0xB0FB0E4E⟩
            n := 0
            buf := Vector.replicate 64 0
            okey := Vector.replicate 64 0
            phase := .hash }
        scr := Scr.erased
        cmdIn := s.cmdIn.drop 4 }) ∧
    (s.nctx ≤ slot.toNat → exec (.init slot) s = .next (s.raiseFault .badSlot 0x01 slot))

/-- R133: UPDATE on a slot in phase HASH absorbs the data and changes nothing else but SCR (erased) and CMD_IN; its faults
otherwise. -/
def Obligations.UpdateResult : Prop :=
  ∀ (slot : Byte) (x : List Byte) (s : State),
    (slot.toNat < s.nctx → (s.slotAt slot.toNat).phase = .hash →
      exec (.update slot x) s = .next { s with
        slots := s.slots.set slot.toNat (absorb (s.slotAt slot.toNat) x)
        scr := Scr.erased
        cmdIn := s.cmdIn.drop (12 + x.length) }) ∧
    (slot.toNat < s.nctx → (s.slotAt slot.toNat).phase ≠ .hash →
      exec (.update slot x) s = .next (s.raiseFault .lifecycleFault 0x02 slot)) ∧
    (s.nctx ≤ slot.toNat → exec (.update slot x) s = .next (s.raiseFault .badSlot 0x02 slot))

/-- R150: FINAL on a slot in phase HASH emits the digest and erases the slot and SCR; its faults otherwise. -/
def Obligations.FinalResult : Prop :=
  ∀ (slot : Byte) (s : State),
    (slot.toNat < s.nctx → (s.slotAt slot.toNat).phase = .hash →
      exec (.final slot) s = .next { s with
        slots := s.slots.set slot.toNat Slot.erased
        scr := Scr.erased
        cmdIn := s.cmdIn.drop 4
        rspOut := s.rspOut ++ stateBytes (finalState (s.slotAt slot.toNat)) }) ∧
    (slot.toNat < s.nctx → (s.slotAt slot.toNat).phase ≠ .hash →
      exec (.final slot) s = .next (s.raiseFault .lifecycleFault 0x03 slot)) ∧
    (s.nctx ≤ slot.toNat → exec (.final slot) s = .next (s.raiseFault .badSlot 0x03 slot))

/-- R165: HASH, in every phase of the slot, emits `SM3(X)` and leaves the slot erased; BadSlot for a slot that does not exist. -/
def Obligations.HashResult : Prop :=
  ∀ (slot : Byte) (x : List Byte) (s : State),
    (slot.toNat < s.nctx →
      exec (.hash slot x) s = .next { s with
        slots := s.slots.set slot.toNat Slot.erased
        scr := Scr.erased
        cmdIn := s.cmdIn.drop (12 + x.length)
        rspOut := s.rspOut ++ (sm3 x).toList }) ∧
    (s.nctx ≤ slot.toNat → exec (.hash slot x) s = .next (s.raiseFault .badSlot 0x04 slot))

/-- R166: BUF emits `SM3(X)`; no slot is read or written, and it raises neither BadSlot nor LifecycleFault. -/
def Obligations.BufResult : Prop :=
  ∀ (x : List Byte) (s : State),
    exec (.buf x) s = .next { s with
      scr := Scr.erased
      cmdIn := s.cmdIn.drop (12 + x.length)
      rspOut := s.rspOut ++ (sm3 x).toList }

/-- R178, R185: HMAC_INIT, in every phase of the slot: one compression of the inner pad block from IV, 512 bits counted, BUF
empty, the outer pad key kept, phase HMAC; BadSlot for a slot that does not exist. (What is consumed of CMD_IN: R80 step 6 and
log entry 4.) -/
def Obligations.HmacInitResult : Prop :=
  ∀ (slot : Byte) (y : List Byte) (s : State),
    (slot.toNat < s.nctx →
      exec (.hmacInit slot y) s = .next { s with
        slots := s.slots.set slot.toNat
          { v := cf iv (xorByte (normKey y) 0x36)
            n := 512
            buf := Vector.replicate 64 0
            okey := xorByte (normKey y) 0x5c
            phase := .hmac }
        scr := Scr.erased
        cmdIn := s.cmdIn.drop (12 + y.length) }) ∧
    (s.nctx ≤ slot.toNat → exec (.hmacInit slot y) s = .next (s.raiseFault .badSlot 0x11 slot))

/-- R179: HMAC_UPDATE on a slot in phase HMAC absorbs the data; its faults otherwise. -/
def Obligations.HmacUpdateResult : Prop :=
  ∀ (slot : Byte) (x : List Byte) (s : State),
    (slot.toNat < s.nctx → (s.slotAt slot.toNat).phase = .hmac →
      exec (.hmacUpdate slot x) s = .next { s with
        slots := s.slots.set slot.toNat (absorb (s.slotAt slot.toNat) x)
        scr := Scr.erased
        cmdIn := s.cmdIn.drop (12 + x.length) }) ∧
    (slot.toNat < s.nctx → (s.slotAt slot.toNat).phase ≠ .hmac →
      exec (.hmacUpdate slot x) s = .next (s.raiseFault .lifecycleFault 0x12 slot)) ∧
    (s.nctx ≤ slot.toNat → exec (.hmacUpdate slot x) s = .next (s.raiseFault .badSlot 0x12 slot))

/-- R180: HMAC_FINAL on a slot in phase HMAC emits `SM3(OKEY || inner digest)` and erases the slot and SCR; its faults
otherwise. -/
def Obligations.HmacFinalResult : Prop :=
  ∀ (slot : Byte) (s : State),
    (slot.toNat < s.nctx → (s.slotAt slot.toNat).phase = .hmac →
      exec (.hmacFinal slot) s = .next { s with
        slots := s.slots.set slot.toNat Slot.erased
        scr := Scr.erased
        cmdIn := s.cmdIn.drop 4
        rspOut := s.rspOut ++
          (sm3 ((s.slotAt slot.toNat).okey.toList ++ stateBytes (finalState (s.slotAt slot.toNat)))).toList }) ∧
    (slot.toNat < s.nctx → (s.slotAt slot.toNat).phase ≠ .hmac →
      exec (.hmacFinal slot) s = .next (s.raiseFault .lifecycleFault 0x13 slot)) ∧
    (s.nctx ≤ slot.toNat → exec (.hmacFinal slot) s = .next (s.raiseFault .badSlot 0x13 slot))

/-- R181 (its response and the slot it leaves), R177: HMAC, in every phase of the slot, emits `HMAC_SM3(Y, X)` and leaves the
slot erased; BadSlot for a slot that does not exist. -/
def Obligations.HmacResult : Prop :=
  ∀ (slot : Byte) (x y : List Byte) (s : State),
    (slot.toNat < s.nctx →
      exec (.hmac slot x y) s = .next { s with
        slots := s.slots.set slot.toNat Slot.erased
        scr := Scr.erased
        cmdIn := s.cmdIn.drop (20 + x.length + y.length)
        rspOut := s.rspOut ++
          (sm3 ((xorByte (normKey y) 0x5c).toList ++ (sm3 ((xorByte (normKey y) 0x36).toList ++ x)).toList)).toList }) ∧
    (s.nctx ≤ slot.toNat → exec (.hmac slot x y) s = .next (s.raiseFault .badSlot 0x14 slot))

/-- R182, R177: HMAC_BUF emits `HMAC_SM3(Y, X)`; no slot is read or written. -/
def Obligations.HmacBufResult : Prop :=
  ∀ (x y : List Byte) (s : State),
    exec (.hmacBuf x y) s = .next { s with
      scr := Scr.erased
      cmdIn := s.cmdIn.drop (20 + x.length + y.length)
      rspOut := s.rspOut ++
        (sm3 ((xorByte (normKey y) 0x5c).toList ++ (sm3 ((xorByte (normKey y) 0x36).toList ++ x)).toList)).toList }

/-! ## The accumulator and finalization (41, 42) -/

/-- R134 to R136: `Absorb` field by field, block `b` being bytes `64b .. 64b+63` of the pending bytes followed by the data. -/
def Obligations.AbsorbFollowsTheRule : Prop :=
  ∀ (c : Slot) (x p : List Byte) (r k : Nat),
    r = (c.n.toNat / 8) % 64 → p = c.buf.toList.take r ++ x → k = p.length / 64 →
    (absorb c x).v = (List.range k).foldl (fun v b => cf v (blockOf ((p.drop (64 * b)).take 64))) c.v ∧
    (absorb c x).n.toNat = (c.n.toNat + 8 * x.length) % 2 ^ 64 ∧
    (absorb c x).buf.toList = p.drop (64 * k) ++ rep 0 (64 - (p.length - 64 * k)) ∧
    (absorb c x).okey = c.okey ∧ (absorb c x).phase = c.phase ∧
    ((absorb c x).n.toNat / 8) % 64 = p.length - 64 * k

/-- R139: absorbing the empty string changes nothing in a slot whose BUF is zero from the pending count on (R24); UPDATE with
LEN = 0 still consumes its 12-byte packet and still requires phase HASH. (That 12 bytes go whatever they are: log entry 4.) -/
def Obligations.ZeroLengthUpdateIsNoOp : Prop :=
  (∀ c : Slot, c.buf.toList.drop (pendingCount c) = rep 0 (64 - pendingCount c) → absorb c [] = c) ∧
  ∀ (slot : Byte) (s : State), slot.toNat < s.nctx →
    ((s.slotAt slot.toNat).phase = .hash → SlotInv (s.slotAt slot.toNat) →
      exec (.update slot []) s = .next { s with scr := Scr.erased, cmdIn := s.cmdIn.drop 12 }) ∧
    ((s.slotAt slot.toNat).phase ≠ .hash →
      exec (.update slot []) s = .next (s.raiseFault .lifecycleFault 0x02 slot))

/-- R140: chunking invariance, as an equality of records, of every record; for any number of pieces; and of the slots after
two UPDATE commands and after one with the whole data. (That `exec` of the first, the second and the joined command all run
from CMD_IN as it stands, whatever bytes it holds, is the model's reading: log entry 4.) -/
def Obligations.ChunkingInvariance : Prop :=
  (∀ (c : Slot) (x1 x2 : List Byte), absorb (absorb c x1) x2 = absorb c (x1 ++ x2)) ∧
  (∀ (c : Slot) (x : List Byte) (pieces : List (List Byte)),
    (x :: pieces).foldl absorb c = absorb c (x :: pieces).flatten) ∧
  (∀ (slot : Byte) (x1 x2 : List Byte) (s : State), slot.toNat < s.nctx → (s.slotAt slot.toNat).phase = .hash →
    ∃ s1 t u : State, exec (.update slot x1) s = .next s1 ∧ exec (.update slot x2) s1 = .next t ∧
      exec (.update slot (x1 ++ x2)) s = .next u ∧ t.slots = u.slots)

/-- R141, R23: after INIT and any pieces of a message of fewer than 2^61 bytes the record is a function of the message alone. -/
def Obligations.CanonicalStateOfMessage : Prop :=
  ∀ (pieces : List (List Byte)), pieces.flatten.length < 2 ^ 61 →
    let m := pieces.flatten
    let c := pieces.foldl absorb initContext
    c.n.toNat = 8 * m.length ∧
    c.v = (List.range (m.length / 64)).foldl (fun v b => cf v (blockOf ((m.drop (64 * b)).take 64))) iv ∧
    c.buf.toList = m.drop (64 * (m.length / 64)) ++ rep 0 (64 - m.length % 64) ∧
    c.okey = Vector.replicate 64 0 ∧ c.phase = .hash

/-- R142, R159, R186, R263: the number of compressions of each command, `r` being the pending count of its slot before; and
that the blocks counted are the ones the command computes with: the state UPDATE, HMAC_UPDATE and HMAC_INIT leave in the slot,
the digest of a long key, the inner digest and every emitted digest and MAC are folds of CF over exactly those blocks. -/
def Obligations.CompressionsPerCommand : Prop :=
  ∀ (slot : Byte) (x y : List Byte) (s : State) (c : Slot) (r : Nat),
    c = s.slotAt slot.toNat → r = (c.n.toNat / 8) % 64 →
    let finalCount : Nat → Nat := fun n => if n % 64 ≤ 55 then 1 else 2
    let keyCount := if y.length ≤ 64 then 0 else y.length / 64 + finalCount y.length
    let dataCount := x.length / 64 + finalCount x.length
    let hmacInit := commandBlocks (.hmacInit slot y) c
    let hmac := commandBlocks (.hmac slot x y) c
    let key := if y.length ≤ 64 then y ++ List.replicate (64 - y.length) 0
      else stateBytes (cfAll iv (hmacInit.take keyCount)) ++ List.replicate 32 0
    ((commandBlocks (.init slot) c).length = 0 ∧
      (commandBlocks (.update slot x) c).length = (r + x.length) / 64 ∧
      (commandBlocks (.final slot) c).length = finalCount r ∧
      (commandBlocks (.hash slot x) c).length = dataCount ∧
      (commandBlocks (.buf x) c).length = dataCount ∧
      hmacInit.length = keyCount + 1 ∧
      (commandBlocks (.hmacUpdate slot x) c).length = (r + x.length) / 64 ∧
      (commandBlocks (.hmacFinal slot) c).length = finalCount r + 2 ∧
      hmac.length = (keyCount + 1) + x.length / 64 + (finalCount x.length + 2) ∧
      commandBlocks (.hmacBuf x y) c = hmac ∧ hmac.take (keyCount + 1) = hmacInit) ∧
    (slot.toNat < s.nctx → c.phase = .hash →
      (∃ t : State, exec (.update slot x) s = .next t ∧
        (t.slotAt slot.toNat).v = cfAll c.v (commandBlocks (.update slot x) c)) ∧
      (∃ t : State, exec (.final slot) s = .next t ∧
        t.rspOut = s.rspOut ++ stateBytes (cfAll c.v (commandBlocks (.final slot) c)))) ∧
    (slot.toNat < s.nctx → c.phase = .hmac →
      (∃ t : State, exec (.hmacUpdate slot x) s = .next t ∧
        (t.slotAt slot.toNat).v = cfAll c.v (commandBlocks (.hmacUpdate slot x) c)) ∧
      (∃ (t : State) (mac : List Byte), exec (.hmacFinal slot) s = .next t ∧ t.rspOut = s.rspOut ++ mac ∧
        OuterFold c.v c.okey.toList (commandBlocks (.hmacFinal slot) c) (finalCount r) mac)) ∧
    (slot.toNat < s.nctx →
      (∃ t : State, exec (.hash slot x) s = .next t ∧
        t.rspOut = s.rspOut ++ stateBytes (cfAll iv (commandBlocks (.hash slot x) c))) ∧
      (∃ t : State, exec (.hmacInit slot y) s = .next t ∧
        (hmacInit.drop keyCount).map Vector.toList = [key.map (· ^^^ 0x36)] ∧
        (t.slotAt slot.toNat).v = cfAll iv (hmacInit.drop keyCount) ∧
        (t.slotAt slot.toNat).okey.toList = key.map (· ^^^ 0x5c)) ∧
      (∃ (t : State) (mac : List Byte), exec (.hmac slot x y) s = .next t ∧ t.rspOut = s.rspOut ++ mac ∧
        OuterFold iv (key.map (· ^^^ 0x5c)) (hmac.drop keyCount) (1 + dataCount) mac)) ∧
    (∃ t : State, exec (.buf x) s = .next t ∧
      t.rspOut = s.rspOut ++ stateBytes (cfAll iv (commandBlocks (.buf x) c))) ∧
    (∃ (t : State) (mac : List Byte), exec (.hmacBuf x y) s = .next t ∧ t.rspOut = s.rspOut ++ mac ∧
      OuterFold iv (key.map (· ^^^ 0x5c)) ((commandBlocks (.hmacBuf x y) c).drop keyCount) (1 + dataCount) mac)

/-- R152 to R154: the padding blocks, byte for byte. -/
def Obligations.PaddingBlockLayout : Prop :=
  ∀ (c : Slot) (r : Nat), r = (c.n.toNat / 8) % 64 →
    (r ≤ 55 → (padBlocks c).map Vector.toList =
      [c.buf.toList.take r ++ [0x80] ++ List.replicate (55 - r) 0 ++ toBe64 c.n]) ∧
    (56 ≤ r → (padBlocks c).map Vector.toList =
      [c.buf.toList.take r ++ [0x80] ++ List.replicate (63 - r) 0, List.replicate 56 0 ++ toBe64 c.n])

/-- R158: `SM3` is the fold of CF from IV over the blocks of the padded message. -/
def Obligations.Sm3IsFoldOverPaddedMessage : Prop :=
  ∀ (m : List Byte), m.length < 2 ^ 61 → ∃ z : Nat, z < 64 ∧ (m.length + z) % 64 = 55 ∧
    ∃ p : List Byte, p = m ++ [0x80] ++ List.replicate z 0 ++ toBe64 (BitVec.ofNat 64 (8 * m.length)) ∧
      p.length = 64 * (m.length / 64 + if m.length % 64 ≤ 55 then 1 else 2) ∧
      (sm3 m).toList =
        stateBytes ((List.range (p.length / 64)).foldl
          (fun v b => cf v (blockOf ((p.drop (64 * b)).take 64))) iv)

/-- R50, R51: `to_be32` gives the four bytes from the top, and `be32` and `to_be32` are inverse to each other. -/
def Obligations.WordBytesInverse : Prop :=
  (∀ w : Word, toBe32 w = [w.extractLsb' 24 8, w.extractLsb' 16 8, w.extractLsb' 8 8, w.extractLsb' 0 8] ∧
    be32 (toBe32 w) = w) ∧
  (∀ b0 b1 b2 b3 : Byte,
    (be32 [b0, b1, b2, b3]).toNat = b0.toNat * 2 ^ 24 + b1.toNat * 2 ^ 16 + b2.toNat * 2 ^ 8 + b3.toNat ∧
    toBe32 (be32 [b0, b1, b2, b3]) = [b0, b1, b2, b3])

/-- R52, R72: `to_be64` gives the eight bytes from the top, `be64` is the sum of its bytes by weight, the two are inverse to each
other, and a length field holds the operand's length. -/
def Obligations.LengthFieldReadsBack : Prop :=
  (∀ n : Counter,
    toBe64 n = [n.extractLsb' 56 8, n.extractLsb' 48 8, n.extractLsb' 40 8, n.extractLsb' 32 8,
      n.extractLsb' 24 8, n.extractLsb' 16 8, n.extractLsb' 8 8, n.extractLsb' 0 8] ∧
    be64 (toBe64 n) = n.toNat) ∧
  (∀ b0 b1 b2 b3 b4 b5 b6 b7 : Byte,
    be64 [b0, b1, b2, b3, b4, b5, b6, b7] =
      b0.toNat * 2 ^ 56 + b1.toNat * 2 ^ 48 + b2.toNat * 2 ^ 40 + b3.toNat * 2 ^ 32 +
        b4.toNat * 2 ^ 24 + b5.toNat * 2 ^ 16 + b6.toNat * 2 ^ 8 + b7.toNat ∧
    toBe64 (BitVec.ofNat 64 (be64 [b0, b1, b2, b3, b4, b5, b6, b7])) = [b0, b1, b2, b3, b4, b5, b6, b7]) ∧
  (∀ x : List Byte, x.length < 2 ^ 64 → lengthField x = toBe64 (BitVec.ofNat 64 x.length) ∧
    be64 (lengthField x) = x.length)

/-- R53, R155: the digest is 32 bytes, word 0 first, each word big-endian. -/
def Obligations.DigestWordOrder : Prop :=
  ∀ (c : Slot), (finalDigest c).toList.length = 32 ∧ ∀ i : Nat, i < 8 →
    ((finalDigest c).toList.drop (4 * i)).take 4 = toBe32 ((stateWords (finalState c)).getD i 0)

/-- R175, R183: the key-normalization boundary. -/
def Obligations.KeyNormalizationBoundary : Prop :=
  ∀ (y : List Byte),
    (y.length ≤ 64 → (normKey y).toList = y ++ List.replicate (64 - y.length) 0) ∧
    (64 < y.length → (normKey y).toList = (sm3 y).toList ++ List.replicate 32 0) ∧
    (∀ (j : Nat) (m : List Byte), y.length + j ≤ 64 → hmacSm3 (y ++ List.replicate j 0) m = hmacSm3 y m) ∧
    (∀ m : List Byte, 64 < y.length → hmacSm3 y m = hmacSm3 (sm3 y).toList m)

/-! ## The compression engine (40) -/

/-- R102, R108 to R110: the schedule: 16 big-endian words of the block, 52 by the recurrence with P1 written out (`u` is what
P1 is applied to), and the second sequence. -/
def Obligations.ScheduleRecurrence : Prop :=
  ∀ (b : Block) (w : Nat → Word), (∀ i, w i = (expand b).w.toList.getD i 0) →
    (∀ i, i < 16 → w i = be32 ((b.toList.drop (4 * i)).take 4)) ∧
    (∀ i, 16 ≤ i → i < 68 →
      let u := w (i - 16) ^^^ w (i - 9) ^^^ rotl (w (i - 3)) 15
      w i = (u ^^^ rotl u 15 ^^^ rotl u 23) ^^^ rotl (w (i - 13)) 7 ^^^ w (i - 6)) ∧
    (∀ i, i < 64 → (expand b).w1.toList.getD i 0 = w i ^^^ w (i + 4))

/-- R105, R106: the round constants: the formula, the recurrence within each sequence, the starting values, the table. -/
def Obligations.RoundConstantSequences : Prop :=
  (∀ j, j ≤ 15 → baseConstant j = 0x79CC4519) ∧ (∀ j, 16 ≤ j → j ≤ 63 → baseConstant j = 0x7A879D8A) ∧
  (∀ j, j ≤ 63 → roundConstant j = rotl (baseConstant j) (j % 32)) ∧
  roundConstant 0 = 0x79CC4519 ∧ roundConstant 16 = 0x9D8A7A87 ∧ roundConstant 32 = 0x7A879D8A ∧
  (∀ j, j ≤ 14 → roundConstant (j + 1) = rotl (roundConstant j) 1) ∧
  (∀ j, 16 ≤ j → j ≤ 62 → roundConstant (j + 1) = rotl (roundConstant j) 1) ∧
  (∀ j, 16 ≤ j → j ≤ 31 → roundConstant (j + 32) = roundConstant j) ∧
  (List.range 32).map roundConstant =
    [0x79cc4519, 0xf3988a32, 0xe7311465, 0xce6228cb, 0x9cc45197, 0x3988a32f, 0x7311465e, 0xe6228cbc,
     0xcc451979, 0x988a32f3, 0x311465e7, 0x6228cbce, 0xc451979c, 0x88a32f39, 0x11465e73, 0x228cbce6,
     0x9d8a7a87, 0x3b14f50f, 0x7629ea1e, 0xec53d43c, 0xd8a7a879, 0xb14f50f3, 0x629ea1e7, 0xc53d43ce,
     0x8a7a879d, 0x14f50f3b, 0x29ea1e76, 0x53d43cec, 0xa7a879d8, 0x4f50f3b1, 0x9ea1e762, 0x3d43cec5] ∧
  ((List.range 32).map fun j => roundConstant (32 + j)) =
    [0x7a879d8a, 0xf50f3b14, 0xea1e7629, 0xd43cec53, 0xa879d8a7, 0x50f3b14f, 0xa1e7629e, 0x43cec53d,
     0x879d8a7a, 0x0f3b14f5, 0x1e7629ea, 0x3cec53d4, 0x79d8a7a8, 0xf3b14f50, 0xe7629ea1, 0xcec53d43,
     0x9d8a7a87, 0x3b14f50f, 0x7629ea1e, 0xec53d43c, 0xd8a7a879, 0xb14f50f3, 0x629ea1e7, 0xc53d43ce,
     0x8a7a879d, 0x14f50f3b, 0x29ea1e76, 0x53d43cec, 0xa7a879d8, 0x4f50f3b1, 0x9ea1e762, 0x3d43cec5]

/-- R103, R104, R113: one round, with the functions of its half written out. -/
def Obligations.RoundWritesAllRegisters : Prop :=
  ∀ (sch : Schedule) (a b c d e f g h s1 t1 t2 : Word) (j : Nat), j < 64 →
    let ss1 := rotl (rotl a 12 + e + roundConstant j) 7
    let ff := if j < 16 then a ^^^ b ^^^ c else (a &&& b) ||| ((a ||| b) &&& c)
    let gg := if j < 16 then e ^^^ f ^^^ g else g ^^^ (e &&& (f ^^^ g))
    let tt1 := ff + d + (ss1 ^^^ rotl a 12) + sch.w1.toList.getD j 0
    let tt2 := gg + h + ss1 + sch.w.toList.getD j 0
    Machine.round sch ⟨⟨a, b, c, d, e, f, g, h⟩, s1, t1, t2⟩ j =
      ⟨⟨tt1, a, rotl b 9, c, tt2 ^^^ rotl tt2 9 ^^^ rotl tt2 17, e, rotl f 19, g⟩, ss1, tt1, tt2⟩

/-- R112, R114 to R116: CF loads the registers, runs rounds 0 to 63 in order, each on what the one before left, and feeds
forward by exclusive-or. -/
def Obligations.CompressionIsSixtyFourRounds : Prop :=
  ∀ (vin : HashState) (b : Block), ∃ r : Nat → RoundRegs,
    (r 0).x = vin ∧ (∀ j, j < 64 → r (j + 1) = Machine.round (expand b) (r j) j) ∧
    stateWords (cf vin b) = List.zipWith (· ^^^ ·) (stateWords vin) (stateWords (r 64).x)

/-- R111 (corner case): `Expand` is linear over exclusive-or. -/
def Obligations.ExpandIsLinear : Prop :=
  ∀ (b b' bx : Block), bx.toList = List.zipWith (· ^^^ ·) b.toList b'.toList →
    (expand bx).w.toList = List.zipWith (· ^^^ ·) (expand b).w.toList (expand b').w.toList ∧
    (expand bx).w1.toList = List.zipWith (· ^^^ ·) (expand b).w1.toList (expand b').w1.toList

/-! ## State, reset, ports (10, 70) -/

/-- R41, R250: reset, asserted in any state, leaves every field of every slot, SCR and STATUS zero and both streams empty. -/
def Obligations.ResetLeavesEverythingZero : Prop :=
  ∀ (s : State),
    hostAct s .reset =
      { slots := List.replicate s.nctx
          { v := ⟨0, 0, 0, 0, 0, 0, 0, 0⟩, n := 0, buf := Vector.replicate 64 0, okey := Vector.replicate 64 0, phase := .idle }
        scr :=
          { x := ⟨0, 0, 0, 0, 0, 0, 0, 0⟩, w := Vector.replicate 68 0, w1 := Vector.replicate 64 0, ss1 := 0, tt1 := 0, tt2 := 0
            blk := Vector.replicate 64 0, kb := Vector.replicate 64 0, pb := Vector.replicate 64 0, dg := Vector.replicate 32 0
            t :=
              { v := ⟨0, 0, 0, 0, 0, 0, 0, 0⟩, n := 0, buf := Vector.replicate 64 0, okey := Vector.replicate 64 0
                phase := .idle } }
        status := 0
        cmdIn := []
        rspOut := [] } ∧
    (hostAct s .reset).cap = s.cap

/-- R33: the status port: number 0 is STATUS, number 1 is CAP, no other number is a register, and a write is ignored. -/
def Obligations.StatusPortReadsAndWrites : Prop :=
  ∀ (s : State) (n : Nat) (v : BitVec 32),
    s.readReg 0 = some s.status ∧ s.readReg 1 = some s.cap ∧ (2 ≤ n → s.readReg n = none) ∧
    hostAct s (.writeReg n v) = s

/-- R34: CAP holds NCTX in bits 8:0 and zero above, and no move of engine or host changes it. -/
def Obligations.CapIsConstant : Prop :=
  (∀ s : State, Config.LegalNctx s.nctx → s.cap.toNat = s.nctx) ∧
  (∀ s t : State, Moves s t → t.cap = s.cap ∧ t.nctx = s.nctx)

/-- R39: the slot image: 176 bytes, the fields at their offsets. -/
def Obligations.SlotImageLayout : Prop :=
  ∀ (s : State) (k : Nat) (c : Slot), s.slots[k]? = some c → ∃ im : List Byte,
    s.image k = some im ∧ im.length = 176 ∧
    im.take 0x20 = (stateWords c.v).flatMap toBe32 ∧
    (im.drop 0x20).take 8 = toBe64 c.n ∧
    (im.drop 0x28).take 64 = c.buf.toList ∧
    (im.drop 0x68).take 64 = c.okey.toList ∧
    im.drop 0xA8 = (match c.phase with
      | .idle => 0
      | .hash => 1
      | .hmac => 2) :: List.replicate 7 0

/-! ## Invariants -/

/-- R41, R27: the reset state of every legal number of slots meets the invariant. That State.reset has two slots is the
model's choice (log entry 1). -/
def Obligations.ResetMeetsInvariant : Prop :=
  (∀ n : Nat, Config.LegalNctx n → (State.resetOf n).Inv) ∧ State.reset.Inv

/-- R27, R29, R32: every step keeps the invariant. -/
def Obligations.StepKeepsInvariant : Prop :=
  ∀ (s t : State), s.Inv → step s = .next t → t.Inv

/-- R27, R29, R32, R250, R251: whatever the host sends, writes or resets, every reachable state meets the invariant and has the
slots the engine was built with. -/
def Obligations.ReachableStatesMeetInvariant : Prop :=
  ∀ (n : Nat) (s : State), Config.LegalNctx n → Reachable n s → s.Inv ∧ s.nctx = n

/-- R203, R205: SCR is erased after every step, a fault among them, whatever it held before. -/
def Obligations.ScratchErasedAfterEveryStep : Prop :=
  ∀ (s t : State), step s = .next t → t.scr = Scr.erased

/-- R204: after FINAL, HASH, HMAC_FINAL or HMAC completes on a slot its image is 176 zero bytes. -/
def Obligations.ImageIsZeroAfterFinalizing : Prop :=
  ∀ (i : Instr) (s : State),
    instrOpcode i ∈ ([.final, .hash, .hmacFinal, .hmac] : List Opcode) →
    headerFault (instrOpcode i) (instrSlotByte i) s = none →
    ∃ t : State, exec i s = .next t ∧ t.image (instrSlotByte i).toNat = some (List.replicate 176 0)

/-- R131: whatever a slot held, its image after INIT is one fixed string of 176 bytes. -/
def Obligations.ImageAfterInitIsFixed : Prop :=
  ∀ (slot : Byte) (s : State), slot.toNat < s.nctx → ∃ t : State, exec (.init slot) s = .next t ∧
    t.image slot.toNat = some
      ([0x73, 0x80, 0x16, 0x6f, 0x49, 0x14, 0xb2, 0xb9, 0x17, 0x24, 0x42, 0xd7, 0xda, 0x8a, 0x06, 0x00,
        0xa9, 0x6f, 0x30, 0xbc, 0x16, 0x31, 0x38, 0xaa, 0xe3, 0x8d, 0xee, 0x4d, 0xb0, 0xfb, 0x0e, 0x4e] ++
        List.replicate 136 0 ++ [0x01] ++ List.replicate 7 0)

/-- R27 item 3: a slot in phase HMAC counts the 64 bytes of the inner pad: HMAC_INIT leaves 512 bits, and HMAC_UPDATE keeps
512 or more as long as the counter does not wrap. -/
def Obligations.HmacCounterStaysAbove512 : Prop :=
  ∀ (slot : Byte) (x : List Byte) (s : State), slot.toNat < s.nctx →
    (∃ t : State, exec (.hmacInit slot x) s = .next t ∧ (t.slotAt slot.toNat).phase = .hmac ∧
      (t.slotAt slot.toNat).n.toNat = 512) ∧
    ((s.slotAt slot.toNat).phase = .hmac → 512 ≤ (s.slotAt slot.toNat).n.toNat →
      (s.slotAt slot.toNat).n.toNat + 8 * x.length < 2 ^ 64 →
      ∃ t : State, exec (.hmacUpdate slot x) s = .next t ∧ (t.slotAt slot.toNat).phase = .hmac ∧
        512 ≤ (t.slotAt slot.toNat).n.toNat)

/-! ## Frames, independence, equivalence -/

/-- R40: the frame of every command: no slot but the named one changes (none, for BUF and HMAC_BUF), the number of slots stays,
SCR ends erased; a command that is admitted leaves STATUS, consumes exactly its packet's length and only appends to RSP_OUT; one
that faults changes STATUS and SCR alone. -/
def Obligations.CommandFrame : Prop :=
  ∀ (i : Instr) (s t : State), exec i s = .next t →
    (∀ k : Nat, (opcodeNamesSlot (instrOpcode i) = true → k ≠ (instrSlotByte i).toNat) → t.slots[k]? = s.slots[k]?) ∧
    t.slots.length = s.slots.length ∧ t.scr = Scr.erased ∧
    (headerFault (instrOpcode i) (instrSlotByte i) s = none →
      t.status = s.status ∧ t.cmdIn = s.cmdIn.drop (packetLength i) ∧ ∃ out : List Byte, t.rspOut = s.rspOut ++ out) ∧
    (headerFault (instrOpcode i) (instrSlotByte i) s ≠ none →
      t.slots = s.slots ∧ t.cmdIn = s.cmdIn ∧ t.rspOut = s.rspOut)

/-- R37: a command that completes appends exactly 32 bytes if it is one of the six that produce a digest, and nothing
otherwise; a fault appends nothing. -/
def Obligations.ResponseLengths : Prop :=
  ∀ (i : Instr) (s : State), ∃ (t : State) (out : List Byte), exec i s = .next t ∧ t.rspOut = s.rspOut ++ out ∧
    out.length =
      if headerFault (instrOpcode i) (instrSlotByte i) s = none ∧
          instrOpcode i ∈ ([.final, .hash, .buf, .hmacFinal, .hmac, .hmacBuf] : List Opcode)
      then 32 else 0

/-- R235: the lifecycle table. For every command on an existing slot, the phase it leaves, with 32 bytes emitted exactly where
that phase is IDLE, or the LifecycleFault it takes; BUF and HMAC_BUF leave every slot, and reset makes every slot IDLE. -/
def Obligations.LifecycleTableHolds : Prop :=
  (∀ (i : Instr) (s : State), opcodeNamesSlot (instrOpcode i) = true → (instrSlotByte i).toNat < s.nctx →
    ∃ t : State, exec i s = .next t ∧
      match lifecycleTable (instrOpcode i) (s.slotAt (instrSlotByte i).toNat).phase with
      | some p =>
        (t.slotAt (instrSlotByte i).toNat).phase = p ∧ t.status = s.status ∧
          t.rspOut.length = s.rspOut.length + (if p = .idle then 32 else 0)
      | none => t = s.raiseFault .lifecycleFault (opcodeByte (instrOpcode i)) (instrSlotByte i)) ∧
  (∀ (i : Instr) (s : State), opcodeNamesSlot (instrOpcode i) = false →
    ∃ t : State, exec i s = .next t ∧ t.slots = s.slots) ∧
  (∀ (s : State), ∀ c ∈ (hostAct s .reset).slots, c.phase = .idle)

/-- R64: two adjacent commands that name different slots (or no slot), neither of which faults, commute: with their packets on
CMD_IN in either order, two steps consume both and leave the same slots, SCR (erased) and STATUS; what each appends to RSP_OUT
is what it appends alone, and the two stand in the order of the commands. -/
def Obligations.CommandsOnDifferentSlotsCommute : Prop :=
  ∀ (i j : Instr) (s : State) (rest : List Byte),
    s.halted = false → WellFormed i → WellFormed j →
    (opcodeNamesSlot (instrOpcode i) = true → opcodeNamesSlot (instrOpcode j) = true → instrSlotByte i ≠ instrSlotByte j) →
    headerFault (instrOpcode i) (instrSlotByte i) s = none →
    headerFault (instrOpcode j) (instrSlotByte j) s = none →
    ∃ (si sj t u : State) (a b : List Byte),
      runOn 1 s (packets [i]) = .next si ∧ si.rspOut = s.rspOut ++ a ∧
      runOn 1 s (packets [j]) = .next sj ∧ sj.rspOut = s.rspOut ++ b ∧
      runOn 2 s (packets [i, j] ++ rest) = .next t ∧ runOn 2 s (packets [j, i] ++ rest) = .next u ∧
      t.slots = u.slots ∧ t.scr = Scr.erased ∧ u.scr = Scr.erased ∧ t.status = u.status ∧
      t.cmdIn = rest ∧ u.cmdIn = rest ∧ t.rspOut = s.rspOut ++ a ++ b ∧ u.rspOut = s.rspOut ++ b ++ a

/-- R118, R187, R230: what a command emits and what it leaves in its slot depend on its operands and its own slot alone: two
states that agree on the number of slots and on that slot, whatever else they hold, give the same. -/
def Obligations.ResponseDependsOnlyOnNamedSlot : Prop :=
  ∀ (i : Instr) (s s' : State), s.nctx = s'.nctx →
    s.slotAt (instrSlotByte i).toNat = s'.slotAt (instrSlotByte i).toNat →
    ∃ (t t' : State) (out : List Byte), exec i s = .next t ∧ exec i s' = .next t' ∧
      t.rspOut = s.rspOut ++ out ∧ t'.rspOut = s'.rspOut ++ out ∧
      t.slotAt (instrSlotByte i).toNat = t'.slotAt (instrSlotByte i).toNat

/-- R167: HASH, in one step, has the same effect on the whole state as INIT, UPDATE for any pieces of the data, and FINAL; BUF
appends the same bytes and leaves every slot. -/
def Obligations.HashEqualsStreaming : Prop :=
  ∀ (s : State) (slot : Byte) (pieces : List (List Byte)) (rest : List Byte),
    s.halted = false → slot.toNat < s.nctx → pieces.flatten.length < 2 ^ 64 →
    ∃ t : State,
      runOn 1 s (encode (.hash slot pieces.flatten) ++ rest) = .next t ∧
      runOn (pieces.length + 2) s
        (packets ([.init slot] ++ pieces.map (.update slot) ++ [.final slot]) ++ rest) = .next t ∧
      ∃ b : State, runOn 1 s (encode (.buf pieces.flatten) ++ rest) = .next b ∧
        b.rspOut = t.rspOut ∧ b.slots = s.slots

/-- R181: HMAC, in one step, has the same effect on the whole state as HMAC_INIT, HMAC_UPDATE for any pieces of the data, and
HMAC_FINAL. -/
def Obligations.HmacEqualsStreaming : Prop :=
  ∀ (s : State) (slot : Byte) (pieces : List (List Byte)) (key rest : List Byte),
    s.halted = false → slot.toNat < s.nctx → pieces.flatten.length < 2 ^ 64 → key.length < 2 ^ 64 →
    ∃ t : State,
      runOn 1 s (encode (.hmac slot pieces.flatten key) ++ rest) = .next t ∧
      runOn (pieces.length + 2) s
        (packets ([.hmacInit slot key] ++ pieces.map (.hmacUpdate slot) ++ [.hmacFinal slot]) ++ rest) = .next t
end

