-- ==== Sys2Proof/Laws/Bytes.lean ====
section
/-! SUPPORT. Lemmas of the byte-string operations and of the byte orders. -/

namespace Sys2Proof.Laws

theorem padTo_toList {α : Type} (n : Nat) (z : α) (l : List α) :
    (padTo n z l).toList = l.take n ++ List.replicate (n - l.length) z := rfl

theorem padTo_toList_of_le {α : Type} {n : Nat} (z : α) {l : List α} (h : l.length ≤ n) :
    (padTo n z l).toList = l ++ List.replicate (n - l.length) z := by
  rw [padTo_toList, List.take_of_length_le h]

theorem padTo_toList_of_length {α : Type} {n : Nat} (z : α) {l : List α} (h : l.length = n) :
    (padTo n z l).toList = l := by
  rw [padTo_toList_of_le z h.le, h, Nat.sub_self, List.replicate_zero, List.append_nil]

theorem padTo_toList_self {α : Type} {n : Nat} (z : α) (v : Vector α n) : padTo n z v.toList = v :=
  Vector.toList_inj.mp (padTo_toList_of_length z v.length_toList)

theorem blockOf_toList_of_le {l : List Byte} (h : l.length ≤ 64) :
    (blockOf l).toList = l ++ rep 0 (64 - l.length) := padTo_toList_of_le 0 h

theorem blockOf_toList_of_length {l : List Byte} (h : l.length = 64) : (blockOf l).toList = l :=
  padTo_toList_of_length 0 h

theorem digestOf_toList_of_length {l : List Byte} (h : l.length = 32) : (digestOf l).toList = l :=
  padTo_toList_of_length 0 h

theorem blockOf_nil : blockOf [] = Vector.replicate 64 0 := rfl

/-- A block does not see zeros appended within its 64 bytes. -/
theorem blockOf_append_rep {l : List Byte} {j : Nat} (h : l.length + j ≤ 64) :
    blockOf (l ++ rep 0 j) = blockOf l := by
  apply Vector.toList_inj.mp
  have hl : (l ++ rep 0 j).length ≤ 64 := by simpa [rep] using h
  rw [blockOf_toList_of_le hl, blockOf_toList_of_le (by omega)]
  simp only [rep, List.append_assoc, List.replicate_append_replicate, List.length_append, List.length_replicate]
  congr 2
  omega

theorem length_rep (v : Byte) (n : Nat) : (rep v n).length = n := List.length_replicate

theorem length_toBe32 (w : Word) : (toBe32 w).length = 4 := rfl

theorem length_toBe64 (n : Counter) : (toBe64 n).length = 8 := rfl

theorem be32_toNat (b0 b1 b2 b3 : Byte) :
    (be32 [b0, b1, b2, b3]).toNat = b0.toNat * 2 ^ 24 + b1.toNat * 2 ^ 16 + b2.toNat * 2 ^ 8 + b3.toNat := by
  simp only [be32, BitVec.toNat_ofNat]
  have := b0.isLt
  have := b1.isLt
  have := b2.isLt
  have := b3.isLt
  omega

theorem be32_of_toBe32 (w : Word) : be32 (toBe32 w) = w := by
  apply BitVec.eq_of_toNat_eq
  simp only [toBe32, be32_toNat, BitVec.extractLsb'_toNat, Nat.shiftRight_eq_div_pow]
  have := w.isLt
  omega

/-- A byte of a `w`-bit number given by its value. -/
theorem extract_byte_ofNat {w k m : Nat} {b : Byte} (h : k / 2 ^ m % 2 ^ 8 = b.toNat) (hk : k < 2 ^ w) :
    (BitVec.ofNat w k).extractLsb' m 8 = b := by
  apply BitVec.eq_of_toNat_eq
  rw [BitVec.extractLsb'_toNat, BitVec.toNat_ofNat, Nat.mod_eq_of_lt hk, Nat.shiftRight_eq_div_pow, h]

theorem toBe32_of_be32 (b0 b1 b2 b3 : Byte) : toBe32 (be32 [b0, b1, b2, b3]) = [b0, b1, b2, b3] := by
  have h0 := b0.isLt
  have h1 := b1.isLt
  have h2 := b2.isLt
  have h3 := b3.isLt
  rw [be32]
  generalize hk : b0.toNat * 2 ^ 24 + b1.toNat * 2 ^ 16 + b2.toNat * 2 ^ 8 + b3.toNat = k
  have hlt : k < 2 ^ 32 := by omega
  simp only [toBe32, List.cons.injEq, and_true]
  refine ⟨?_, ?_, ?_, ?_⟩ <;> exact extract_byte_ofNat (by omega) hlt

theorem be64_of_toBe64 (n : Counter) : be64 (toBe64 n) = n.toNat := by
  simp only [be64, toBe64, List.foldl_cons, List.foldl_nil, BitVec.extractLsb'_toNat, Nat.shiftRight_eq_div_pow]
  have := n.isLt
  omega

/-- `be64` of eight bytes, as one number. -/
theorem be64_eight (b0 b1 b2 b3 b4 b5 b6 b7 : Byte) :
    be64 [b0, b1, b2, b3, b4, b5, b6, b7] =
      b0.toNat * 2 ^ 56 + b1.toNat * 2 ^ 48 + b2.toNat * 2 ^ 40 + b3.toNat * 2 ^ 32 +
        b4.toNat * 2 ^ 24 + b5.toNat * 2 ^ 16 + b6.toNat * 2 ^ 8 + b7.toNat := by
  simp only [be64, List.foldl_cons, List.foldl_nil]
  omega

/-- Eight bytes are the big-endian bytes of the number they read as. -/
theorem toBe64_of_be64 {b : List Byte} (h : b.length = 8) :
    be64 b < 2 ^ 64 ∧ toBe64 (BitVec.ofNat 64 (be64 b)) = b := by
  match b, h with
  | [b0, b1, b2, b3, b4, b5, b6, b7], _ =>
    rw [be64_eight]
    have h0 := b0.isLt
    have h1 := b1.isLt
    have h2 := b2.isLt
    have h3 := b3.isLt
    have h4 := b4.isLt
    have h5 := b5.isLt
    have h6 := b6.isLt
    have h7 := b7.isLt
    generalize hk : b0.toNat * 2 ^ 56 + b1.toNat * 2 ^ 48 + b2.toNat * 2 ^ 40 + b3.toNat * 2 ^ 32 +
        b4.toNat * 2 ^ 24 + b5.toNat * 2 ^ 16 + b6.toNat * 2 ^ 8 + b7.toNat = k
    have hlt : k < 2 ^ 64 := by omega
    refine ⟨hlt, ?_⟩
    simp only [toBe64, List.cons.injEq, and_true]
    refine ⟨?_, ?_, ?_, ?_, ?_, ?_, ?_, ?_⟩ <;> exact extract_byte_ofNat (by omega) hlt

theorem be64_toBe64_ofNat {k : Nat} (h : k < 2 ^ 64) : be64 (toBe64 (BitVec.ofNat 64 k)) = k := by
  rw [be64_of_toBe64, BitVec.toNat_ofNat, Nat.mod_eq_of_lt h]

theorem xorByte_toList (b : Block) (k : Byte) : (xorByte b k).toList = b.toList.map (· ^^^ k) :=
  blockOf_toList_of_length (by simp)

end Sys2Proof.Laws
end

