-- ==== Sys2Proof/Laws/Compression.lean ====
section
/-! SUPPORT. Lemmas of the schedule expander and of the compression engine. -/

namespace Sys2Proof.Laws

open Sys2Proof.Machine

theorem length_beWords (k : Nat) (l : List Byte) : (beWords k l).length = k := by
  induction k generalizing l with
  | zero => rfl
  | succ k ih => simp [beWords, ih]

theorem length_extendSchedule (k : Nat) (h : List Word) : (extendSchedule k h).length = h.length + k := by
  induction k generalizing h with
  | zero => rfl
  | succ k ih =>
    rw [extendSchedule, ih, List.length_cons]
    omega

theorem length_scheduleWords (b : Block) : (scheduleWords b).length = 68 := by
  simp [scheduleWords, length_extendSchedule, length_beWords]

theorem length_secondWords (w : List Word) : (secondWords w).length = 64 := by simp [secondWords]

theorem expand_w_toList (b : Block) : (expand b).w.toList = scheduleWords b :=
  padTo_toList_of_length 0 (length_scheduleWords b)

theorem expand_w1_toList (b : Block) : (expand b).w1.toList = secondWords (scheduleWords b) :=
  padTo_toList_of_length 0 (length_secondWords _)

theorem cfAll_nil (v : HashState) : cfAll v [] = v := rfl

theorem cfAll_cons (v : HashState) (b : Block) (bs : List Block) : cfAll v (b :: bs) = cfAll (cf v b) bs := rfl

theorem cfAll_append (v : HashState) (bs cs : List Block) : cfAll v (bs ++ cs) = cfAll (cfAll v bs) cs :=
  List.foldl_append

theorem length_stateBytes (v : HashState) : (stateBytes v).length = 32 := rfl

/-- A step of the recurrence, read with the newest word first: the words so far stay behind the new one. -/
theorem extendSchedule_suffix (k : Nat) (h : List Word) : ∃ l, extendSchedule k h = l ++ h := by
  induction k generalizing h with
  | zero => exact ⟨[], rfl⟩
  | succ k ih =>
    obtain ⟨l, hl⟩ := ih (nextScheduleWord h :: h)
    exact ⟨l ++ [nextScheduleWord h], by rw [extendSchedule, hl]; simp⟩

/-- The words so far after `a + b` steps are those after `a` steps, extended by `b`. -/
theorem extendSchedule_add (a b : Nat) (h : List Word) :
    extendSchedule (a + b) h = extendSchedule b (extendSchedule a h) := by
  induction a generalizing h with
  | zero => simp [extendSchedule]
  | succ a ih => rw [Nat.succ_add, extendSchedule, ih, extendSchedule]

theorem extendSchedule_one (h : List Word) : extendSchedule 1 h = nextScheduleWord h :: h := rfl

end Sys2Proof.Laws
end

