-- ==== Sys2Proof/Laws/Accumulator.lean ====
section
/-! SUPPORT. Lemmas of blocks, of the pending bytes, of absorption and of padding: the arithmetic that the accumulator's
statements rest on. -/

namespace Sys2Proof.Laws

open Sys2Proof.Machine

theorem length_blocks (k : Nat) (p : List Byte) : (blocks k p).length = k := by
  induction k generalizing p with
  | zero => rfl
  | succ k ih => simp [blocks, ih]

theorem length_wholeBlocks (p : List Byte) : (wholeBlocks p).length = p.length / 64 := length_blocks _ _

/-- The fold over the blocks of `p` is the fold over their numbers. -/
theorem cfAll_blocks (k : Nat) (p : List Byte) (v : HashState) :
    cfAll v (blocks k p) =
      (List.range k).foldl (fun v b => cf v (blockOf ((p.drop (64 * b)).take 64))) v := by
  induction k generalizing p v with
  | zero => rfl
  | succ k ih =>
    rw [List.range_succ_eq_map, List.foldl_cons, List.foldl_map, blocks, cfAll_cons, ih]
    simp only [Nat.mul_zero, List.drop_zero, List.drop_drop, Nat.mul_succ, Nat.add_comm]

/-- The first blocks of a string do not see what is appended behind them. -/
theorem blocks_append_left (k : Nat) (p x : List Byte) (h : 64 * k ≤ p.length) : blocks k (p ++ x) = blocks k p := by
  induction k generalizing p with
  | zero => rfl
  | succ k ih =>
    have hk : 64 ≤ p.length := by omega
    rw [blocks, blocks, List.take_append_of_le_length hk, List.drop_append_of_le_length hk,
      ih (p.drop 64) (by rw [List.length_drop]; omega)]

theorem blocks_add (j k : Nat) (p : List Byte) : blocks (j + k) p = blocks j p ++ blocks k (p.drop (64 * j)) := by
  induction j generalizing p with
  | zero => simp [blocks]
  | succ j ih =>
    rw [Nat.succ_add, blocks, blocks, ih, List.cons_append, List.drop_drop]
    congr 4
    omega

theorem length_leftover (p : List Byte) : (leftover p).length = p.length % 64 := by
  rw [leftover, List.length_drop]
  omega

theorem leftover_of_short {p : List Byte} (h : p.length < 64) : leftover p = p := by
  simp [leftover, Nat.div_eq_of_lt h]

theorem leftover_append_eq_drop (p x : List Byte) :
    leftover p ++ x = (p ++ x).drop (64 * (p.length / 64)) := by
  rw [leftover, List.drop_append_of_le_length (by omega)]

/-- Cutting a string into blocks may start again behind the blocks already cut. -/
theorem wholeBlocks_append (p x : List Byte) :
    wholeBlocks (p ++ x) = wholeBlocks p ++ wholeBlocks (leftover p ++ x) := by
  have hk : (p ++ x).length / 64 = p.length / 64 + (leftover p ++ x).length / 64 := by
    simp only [List.length_append, length_leftover]
    omega
  rw [wholeBlocks, hk, blocks_add, blocks_append_left _ _ _ (by omega), ← leftover_append_eq_drop]
  rfl

theorem leftover_append (p x : List Byte) : leftover (p ++ x) = leftover (leftover p ++ x) := by
  have hk : (p ++ x).length / 64 = p.length / 64 + (leftover p ++ x).length / 64 := by
    simp only [List.length_append, length_leftover]
    omega
  rw [leftover, leftover, leftover_append_eq_drop, List.drop_drop, ← leftover_append_eq_drop, hk]
  congr 1
  omega

theorem pendingCount_lt (c : Slot) : pendingCount c < 64 := Nat.mod_lt _ (by decide)

theorem length_pendingBytes (c : Slot) : (pendingBytes c).length = pendingCount c := by
  have := pendingCount_lt c
  rw [pendingBytes, List.length_take, Vector.length_toList]
  omega

theorem absorb_n_toNat (c : Slot) (x : List Byte) :
    (absorb c x).n.toNat = (c.n.toNat + 8 * x.length) % 2 ^ 64 := by
  simp [absorb, BitVec.toNat_add]

/-- The pending count after an absorption: the counter's wrap is invisible to it (R134). -/
theorem pendingCount_absorb (c : Slot) (x : List Byte) :
    pendingCount (absorb c x) = (pendingCount c + x.length) % 64 := by
  rw [pendingCount, absorb_n_toNat, pendingCount]
  omega

theorem length_leftover_absorb (c : Slot) (x : List Byte) :
    (leftover (pendingBytes c ++ x)).length = pendingCount (absorb c x) := by
  rw [length_leftover, pendingCount_absorb, List.length_append, length_pendingBytes]

theorem absorb_buf_toList (c : Slot) (x : List Byte) :
    (absorb c x).buf.toList =
      leftover (pendingBytes c ++ x) ++ rep 0 (64 - pendingCount (absorb c x)) := by
  have h := length_leftover_absorb c x
  have hlt := pendingCount_lt (absorb c x)
  rw [← h]
  exact blockOf_toList_of_le (by omega)

/-- The pending bytes after an absorption are what its blocks left over (R138). -/
theorem pendingBytes_absorb (c : Slot) (x : List Byte) :
    pendingBytes (absorb c x) = leftover (pendingBytes c ++ x) := by
  rw [pendingBytes, absorb_buf_toList, ← length_leftover_absorb, List.take_left]

theorem pendingCount_initContext : pendingCount initContext = 0 := rfl

theorem pendingBytes_initContext : pendingBytes initContext = [] := rfl

theorem absorb_okey (c : Slot) (x : List Byte) : (absorb c x).okey = c.okey := rfl

theorem absorb_phase (c : Slot) (x : List Byte) : (absorb c x).phase = c.phase := rfl

theorem absorb_v (c : Slot) (x : List Byte) : (absorb c x).v = cfAll c.v (absorbBlocks c x) := rfl

theorem absorb_buf (c : Slot) (x : List Byte) : (absorb c x).buf = blockOf (leftover (pendingBytes c ++ x)) := rfl

theorem finalDigest_toList (c : Slot) : (finalDigest c).toList = stateBytes (finalState c) :=
  digestOf_toList_of_length (length_stateBytes _)

/-- Finalization reads the record's state, counter and pending bytes alone. -/
theorem finalState_congr {c d : Slot} (hv : c.v = d.v) (hn : c.n = d.n) (hb : c.buf = d.buf) :
    finalState c = finalState d := by
  have hr : pendingCount c = pendingCount d := by rw [pendingCount, pendingCount, hn]
  have hp : pendingBytes c = pendingBytes d := by rw [pendingBytes, pendingBytes, hb, hr]
  rw [finalState, finalState, hv, padBlocks, padBlocks, hr, hp, hn]

theorem finalDigest_congr {c d : Slot} (hv : c.v = d.v) (hn : c.n = d.n) (hb : c.buf = d.buf) :
    finalDigest c = finalDigest d := by rw [finalDigest, finalDigest, finalState_congr hv hn hb]

theorem length_sm3 (m : List Byte) : (sm3 m).toList.length = 32 := Vector.length_toList

/-- Absorbing one whole block into a fresh context is one compression and leaves nothing pending (R185). -/
theorem absorb_initContext_block (b : Block) :
    absorb initContext b.toList = ⟨cf iv b, 512, blockOf [], blockOf [], .hash⟩ := by
  have hw : wholeBlocks b.toList = [b] := by
    rw [wholeBlocks, Vector.length_toList]
    simp only [Nat.reduceDiv, blocks, List.cons.injEq, and_true]
    rw [List.take_of_length_le (by simp)]
    exact padTo_toList_self 0 b
  have hl : leftover b.toList = [] := by
    rw [leftover, Vector.length_toList]
    exact List.drop_of_length_le (by simp)
  have hp : absorbBlocks initContext b.toList = [b] := by
    rw [absorbBlocks, pendingBytes_initContext, List.nil_append, hw]
  have hn : (0 : Counter) + BitVec.ofNat 64 (8 * 64) = 512 := by decide
  rw [absorb, hp, pendingBytes_initContext, List.nil_append, hl, Vector.length_toList]
  simp only [initContext, cfAll_cons, cfAll_nil, hn]

end Sys2Proof.Laws
end

