-- ==== Sys2Proof/Laws/Decode.lean ====
section
/-! SUPPORT. Lemmas of the decoder and the encoder: the opcode map is a bijection, the header checks, and each format's body. -/

namespace Sys2Proof.Laws

/-- Each opcode byte reads back as its command. -/
theorem opcodeOfByte_opcodeByte (op : Opcode) : opcodeOfByte (opcodeByte op) = some op := by
  cases op <;> decide

/-- No byte but the command's own reads as it. -/
theorem opcodeByte_of_opcodeOfByte {b : Byte} {op : Opcode} (h : opcodeOfByte b = some op) : opcodeByte op = b := by
  have := List.find?_some h
  simpa using this

/-- The bytes that are no opcode (R78). -/
theorem opcodeOfByte_eq_none {b : Byte} : opcodeOfByte b = none ↔ ∀ op, opcodeByte op ≠ b := by
  constructor
  · intro h op he
    rw [← he, opcodeOfByte_opcodeByte] at h
    cases h
  · intro h
    cases hb : opcodeOfByte b with
    | none => rfl
    | some op => exact absurd (opcodeByte_of_opcodeOfByte hb) (h op)

/-- A well-formed header is read as its command (R71, R79). -/
theorem decodeHeader_command {op : Opcode} {h1 : Byte} (body : List Byte)
    (h : opcodeNamesSlot op = false → h1 = 0) :
    decodeHeader (opcodeByte op :: h1 :: 0 :: 0 :: body) = .command op h1 body := by
  simp only [decodeHeader, opcodeOfByte_opcodeByte]
  rw [if_neg]
  rintro (h2 | h3 | ⟨hs, hne⟩)
  · exact h2 rfl
  · exact h3 rfl
  · exact hne (h hs)

/-- What a header read as a command looked like. -/
theorem decodeHeader_eq_command {bytes body : List Byte} {op : Opcode} {h1 : Byte}
    (h : decodeHeader bytes = .command op h1 body) :
    bytes = opcodeByte op :: h1 :: 0 :: 0 :: body ∧ (opcodeNamesSlot op = false → h1 = 0) := by
  match bytes, h with
  | h0 :: h1' :: h2 :: h3 :: body', h =>
    simp only [decodeHeader] at h
    split at h
    · cases h
    · rename_i op' hop
      split at h
      · cases h
      · rename_i hok
        simp only [not_or, not_and, ne_eq, not_not] at hok
        cases h
        obtain ⟨rfl, rfl, hs⟩ := hok
        exact ⟨by rw [opcodeByte_of_opcodeOfByte hop], hs⟩
  | [], h => cases h
  | [_], h => cases h
  | [_, _], h => cases h
  | [_, _, _], h => cases h

/-- Fewer than four bytes are no header (R80 step 1). -/
theorem decodeHeader_short {bytes : List Byte} (h : bytes.length < 4) : decodeHeader bytes = .short := by
  match bytes, h with
  | [], _ => rfl
  | [_], _ => rfl
  | [_, _], _ => rfl
  | [_, _, _], _ => rfl

/-- A header is short only with fewer than four bytes. -/
theorem length_of_decodeHeader_short {bytes : List Byte} (h : decodeHeader bytes = .short) : bytes.length < 4 := by
  match bytes, h with
  | [], _ => simp
  | [_], _ => simp
  | [_, _], _ => simp
  | [_, _, _], _ => simp
  | h0 :: h1 :: h2 :: h3 :: body, h =>
    simp only [decodeHeader] at h
    split at h
    · cases h
    · split at h <;> cases h

/-- An illegal header is reported with its own first two bytes. -/
theorem bytes_of_decodeHeader_illegal {bytes : List Byte} {h0 h1 : Byte} (h : decodeHeader bytes = .illegal h0 h1) :
    ∃ h2 h3 body, bytes = h0 :: h1 :: h2 :: h3 :: body := by
  match bytes, h with
  | [], h => cases h
  | [_], h => cases h
  | [_, _], h => cases h
  | [_, _, _], h => cases h
  | h0' :: h1' :: h2 :: h3 :: body, h =>
    simp only [decodeHeader] at h
    split at h
    · cases h
      exact ⟨h2, h3, body, rfl⟩
    · split at h
      · cases h
        exact ⟨h2, h3, body, rfl⟩
      · cases h

theorem length_lengthField (x : List Byte) : (lengthField x).length = 8 := rfl

/-- An L1 body that holds its operand (R74). -/
theorem decodeL1_packet (mk : List Byte → Instr) {x : List Byte} (rest : List Byte) (hx : lengthFits x) :
    decodeL1 mk (lengthField x ++ x ++ rest) = .packet (mk x) rest := by
  have hlen : be64 (lengthField x) = x.length := be64_toBe64_ofNat hx
  have ht : (lengthField x ++ (x ++ rest)).take 8 = lengthField x := by
    rw [List.take_append_of_le_length (length_lengthField x).ge, List.take_of_length_le (length_lengthField x).le]
  have hd : (lengthField x ++ (x ++ rest)).drop 8 = x ++ rest := by
    rw [List.drop_append_of_le_length (length_lengthField x).ge, List.drop_of_length_le (length_lengthField x).le]
    rfl
  rw [List.append_assoc, decodeL1, if_neg (by simp [length_lengthField]), ht, hd, hlen, if_neg (by simp)]
  simp

/-- What an L1 body read as a packet looked like (R74). -/
theorem decodeL1_eq_packet {mk : List Byte → Instr} {body rest : List Byte} {i : Instr}
    (h : decodeL1 mk body = .packet i rest) :
    ∃ x, lengthFits x ∧ i = mk x ∧ body = lengthField x ++ x ++ rest := by
  rw [decodeL1] at h
  split at h
  · cases h
  · rename_i h8
    dsimp only at h
    split at h
    · cases h
    · rename_i hlen
      cases h
      have h8' : (body.take 8).length = 8 := by rw [List.length_take]; omega
      obtain ⟨hlt, hb⟩ := toBe64_of_be64 h8'
      have hx : ((body.drop 8).take (be64 (body.take 8))).length = be64 (body.take 8) := by
        rw [List.length_take]; omega
      refine ⟨_, ?_, rfl, ?_⟩
      · rw [lengthFits, hx]; exact hlt
      · rw [lengthField, hx, hb, List.append_assoc, List.take_append_drop, List.take_append_drop]

/-- An L2 body that holds its operands (R75). -/
theorem decodeL2_packet (mk : List Byte → List Byte → Instr) {x y : List Byte} (rest : List Byte) (hx : lengthFits x)
    (hy : lengthFits y) :
    decodeL2 mk (lengthField x ++ lengthField y ++ x ++ y ++ rest) = .packet (mk x y) rest := by
  have hlx : be64 (lengthField x) = x.length := be64_toBe64_ofNat hx
  have hly : be64 (lengthField y) = y.length := be64_toBe64_ofNat hy
  have ht : (lengthField x ++ (lengthField y ++ (x ++ (y ++ rest)))).take 8 = lengthField x := by
    rw [List.take_append_of_le_length (length_lengthField x).ge, List.take_of_length_le (length_lengthField x).le]
  have hd : (lengthField x ++ (lengthField y ++ (x ++ (y ++ rest)))).drop 8 = lengthField y ++ (x ++ (y ++ rest)) := by
    rw [List.drop_append_of_le_length (length_lengthField x).ge, List.drop_of_length_le (length_lengthField x).le]
    rfl
  have ht' : (lengthField y ++ (x ++ (y ++ rest))).take 8 = lengthField y := by
    rw [List.take_append_of_le_length (length_lengthField y).ge, List.take_of_length_le (length_lengthField y).le]
  have hd' : (lengthField x ++ (lengthField y ++ (x ++ (y ++ rest)))).drop 16 = x ++ (y ++ rest) := by
    rw [show 16 = 8 + 8 from rfl, ← List.drop_drop, hd, List.drop_append_of_le_length (length_lengthField y).ge,
      List.drop_of_length_le (length_lengthField y).le]
    rfl
  simp only [List.append_assoc]
  rw [decodeL2, if_neg (by simp [length_lengthField]; omega), ht, hd, ht', hd', hlx, hly, if_neg (by simp)]
  simp only [List.take_left, List.drop_left, ← List.drop_drop]

/-- What an L2 body read as a packet looked like (R75). -/
theorem decodeL2_eq_packet {mk : List Byte → List Byte → Instr} {body rest : List Byte} {i : Instr}
    (h : decodeL2 mk body = .packet i rest) :
    ∃ x y, lengthFits x ∧ lengthFits y ∧ i = mk x y ∧ body = lengthField x ++ lengthField y ++ x ++ y ++ rest := by
  rw [decodeL2] at h
  split at h
  · cases h
  · rename_i h16
    dsimp only at h
    split at h
    · cases h
    · rename_i hlen
      cases h
      have h8x : (body.take 8).length = 8 := by rw [List.length_take]; omega
      have h8y : ((body.drop 8).take 8).length = 8 := by rw [List.length_take, List.length_drop]; omega
      obtain ⟨hltx, hbx⟩ := toBe64_of_be64 h8x
      obtain ⟨hlty, hby⟩ := toBe64_of_be64 h8y
      have hx : ((body.drop 16).take (be64 (body.take 8))).length = be64 (body.take 8) := by
        rw [List.length_take]; omega
      have hy : (((body.drop 16).drop (be64 (body.take 8))).take (be64 ((body.drop 8).take 8))).length =
          be64 ((body.drop 8).take 8) := by
        rw [List.length_take, List.length_drop]; omega
      refine ⟨_, _, ?_, ?_, rfl, ?_⟩
      · rw [lengthFits, hx]; exact hltx
      · rw [lengthFits, hy]; exact hlty
      · rw [lengthField, lengthField, hx, hy, hbx, hby]
        simp only [List.append_assoc]
        rw [← List.drop_drop (i := be64 ((body.drop 8).take 8)), List.take_append_drop, List.take_append_drop,
          show body.drop 16 = (body.drop 8).drop 8 by rw [List.drop_drop], List.take_append_drop,
          List.take_append_drop]

/-- Reading a body never reports an illegal header. -/
theorem decodeBody_ne_illegal (op : Opcode) (h1 h0' h1' : Byte) (body : List Byte) :
    decodeBody op h1 body ≠ .illegal h0' h1' := by
  cases op <;> simp only [decodeBody, decodeL1, decodeL2] <;> (try split) <;> (try split) <;> simp

/-- Reading a body gives a command of the header's opcode and SLOT byte. -/
theorem instr_of_decodeBody {op : Opcode} {h1 : Byte} {body rest : List Byte} {i : Instr}
    (h : decodeBody op h1 body = .packet i rest) (h0 : opcodeNamesSlot op = false → h1 = 0) :
    instrOpcode i = op ∧ instrSlotByte i = h1 := by
  cases op with
  | init => cases h; exact ⟨rfl, rfl⟩
  | final => cases h; exact ⟨rfl, rfl⟩
  | hmacFinal => cases h; exact ⟨rfl, rfl⟩
  | update => obtain ⟨_, _, rfl, _⟩ := decodeL1_eq_packet h; exact ⟨rfl, rfl⟩
  | hash => obtain ⟨_, _, rfl, _⟩ := decodeL1_eq_packet h; exact ⟨rfl, rfl⟩
  | buf => obtain ⟨_, _, rfl, _⟩ := decodeL1_eq_packet h; exact ⟨rfl, (h0 rfl).symm⟩
  | hmacInit => obtain ⟨_, _, rfl, _⟩ := decodeL1_eq_packet h; exact ⟨rfl, rfl⟩
  | hmacUpdate => obtain ⟨_, _, rfl, _⟩ := decodeL1_eq_packet h; exact ⟨rfl, rfl⟩
  | hmac => obtain ⟨_, _, _, _, rfl, _⟩ := decodeL2_eq_packet h; exact ⟨rfl, rfl⟩
  | hmacBuf => obtain ⟨_, _, _, _, rfl, _⟩ := decodeL2_eq_packet h; exact ⟨rfl, (h0 rfl).symm⟩

/-- Bytes that begin a length field, filled up with zeros: the field of some length (R72). -/
theorem exists_lengthField {f : List Byte} (h : f.length = 8) :
    be64 f < 2 ^ 64 ∧ ∀ x : List Byte, x.length = be64 f → lengthFits x ∧ lengthField x = f := by
  obtain ⟨hlt, hf⟩ := toBe64_of_be64 h
  refine ⟨hlt, fun x hx => ⟨?_, ?_⟩⟩
  · rw [lengthFits, hx]; exact hlt
  · rw [lengthField, hx, hf]

/-- What an incomplete L1 body looks like: the proper beginning of a body that holds its operand (R74, R82). -/
theorem decodeL1_eq_incomplete {mk : List Byte → Instr} {body : List Byte} (h : decodeL1 mk body = .incomplete) :
    ∃ missing x, missing ≠ [] ∧ lengthFits x ∧ body ++ missing = lengthField x ++ x := by
  rw [decodeL1] at h
  split at h
  · rename_i h8
    have hf : (body ++ rep 0 (8 - body.length)).length = 8 := by rw [List.length_append, length_rep]; omega
    obtain ⟨hx, hl⟩ := (exists_lengthField hf).2 (rep 0 (be64 (body ++ rep 0 (8 - body.length)))) (length_rep _ _)
    refine ⟨rep 0 (8 - body.length) ++ rep 0 (be64 (body ++ rep 0 (8 - body.length))), _, ?_, hx, ?_⟩
    · refine List.ne_nil_of_length_pos ?_
      rw [List.length_append, length_rep]; omega
    · rw [hl, List.append_assoc]
  · rename_i h8
    dsimp only at h
    split at h
    · rename_i hlen
      have hf : (body.take 8).length = 8 := by rw [List.length_take]; omega
      have hx : (body.drop 8 ++ rep 0 (be64 (body.take 8) - (body.drop 8).length)).length = be64 (body.take 8) := by
        rw [List.length_append, length_rep]; omega
      obtain ⟨hfit, hl⟩ := (exists_lengthField hf).2 _ hx
      refine ⟨rep 0 (be64 (body.take 8) - (body.drop 8).length), _, ?_, hfit, ?_⟩
      · refine List.ne_nil_of_length_pos ?_
        rw [length_rep]; omega
      · rw [hl, ← List.append_assoc, List.take_append_drop]
    · cases h

/-- What an incomplete L2 body looks like: the proper beginning of a body that holds its operands (R75, R82). -/
theorem decodeL2_eq_incomplete {mk : List Byte → List Byte → Instr} {body : List Byte}
    (h : decodeL2 mk body = .incomplete) :
    ∃ missing x y, missing ≠ [] ∧ lengthFits x ∧ lengthFits y ∧
      body ++ missing = lengthField x ++ lengthField y ++ x ++ y := by
  rw [decodeL2] at h
  split at h
  · rename_i h16
    generalize hfs : body ++ rep 0 (16 - body.length) = fs
    have hlen : fs.length = 16 := by rw [← hfs, List.length_append, length_rep]; omega
    have hf : (fs.take 8).length = 8 := by rw [List.length_take]; omega
    have hg : (fs.drop 8).length = 8 := by rw [List.length_drop]; omega
    obtain ⟨hx, hlx⟩ := (exists_lengthField hf).2 (rep 0 (be64 (fs.take 8))) (length_rep _ _)
    obtain ⟨hy, hly⟩ := (exists_lengthField hg).2 (rep 0 (be64 (fs.drop 8))) (length_rep _ _)
    refine ⟨rep 0 (16 - body.length) ++ (rep 0 (be64 (fs.take 8)) ++ rep 0 (be64 (fs.drop 8))), _, _, ?_, hx, hy, ?_⟩
    · refine List.ne_nil_of_length_pos ?_
      rw [List.length_append, length_rep]; omega
    · rw [hlx, hly, List.take_append_drop, ← List.append_assoc, hfs, List.append_assoc]
  · rename_i h16
    dsimp only at h
    split at h
    · rename_i hlen
      have hf : (body.take 8).length = 8 := by rw [List.length_take]; omega
      have hg : ((body.drop 8).take 8).length = 8 := by rw [List.length_take, List.length_drop]; omega
      generalize hm : rep 0 (be64 (body.take 8) + be64 ((body.drop 8).take 8) - (body.drop 16).length) = m
      have hml : m.length = be64 (body.take 8) + be64 ((body.drop 8).take 8) - (body.drop 16).length := by
        rw [← hm, length_rep]
      have hx : ((body.drop 16 ++ m).take (be64 (body.take 8))).length = be64 (body.take 8) := by
        rw [List.length_take, List.length_append]; omega
      have hy : ((body.drop 16 ++ m).drop (be64 (body.take 8))).length = be64 ((body.drop 8).take 8) := by
        rw [List.length_drop, List.length_append]; omega
      obtain ⟨hfx, hlx⟩ := (exists_lengthField hf).2 _ hx
      obtain ⟨hfy, hly⟩ := (exists_lengthField hg).2 _ hy
      refine ⟨m, _, _, ?_, hfx, hfy, ?_⟩
      · refine List.ne_nil_of_length_pos ?_
        omega
      · rw [hlx, hly, List.append_assoc, List.append_assoc, List.take_append_drop,
          show body.drop 16 = (body.drop 8).drop 8 by rw [List.drop_drop], ← List.append_assoc ((body.drop 8).take 8),
          List.take_append_drop, ← List.append_assoc, List.take_append_drop]
    · cases h

/-- An incomplete body is the proper beginning of the body of a well-formed command with the same header (R82). -/
theorem encode_of_decodeBody_incomplete {op : Opcode} {h1 : Byte} {body : List Byte}
    (h : decodeBody op h1 body = .incomplete) (h0 : opcodeNamesSlot op = false → h1 = 0) :
    ∃ i missing, WellFormed i ∧ instrOpcode i = op ∧ instrSlotByte i = h1 ∧ missing ≠ [] ∧
      opcodeByte op :: h1 :: 0 :: 0 :: body ++ missing = encode i := by
  have l1 : ∀ {mk : List Byte → Instr}, decodeL1 mk body = .incomplete →
      (∀ x, lengthFits x → WellFormed (mk x) ∧ instrOpcode (mk x) = op ∧ instrSlotByte (mk x) = h1 ∧
        encode (mk x) = opcodeByte op :: h1 :: 0 :: 0 :: (lengthField x ++ x)) →
      ∃ i missing, WellFormed i ∧ instrOpcode i = op ∧ instrSlotByte i = h1 ∧ missing ≠ [] ∧
        opcodeByte op :: h1 :: 0 :: 0 :: body ++ missing = encode i := by
    intro mk hb hmk
    obtain ⟨m, x, hm, hx, he⟩ := decodeL1_eq_incomplete hb
    obtain ⟨hw, ho, hs, hc⟩ := hmk x hx
    exact ⟨mk x, m, hw, ho, hs, hm, by rw [hc, ← he]; rfl⟩
  have l2 : ∀ {mk : List Byte → List Byte → Instr}, decodeL2 mk body = .incomplete →
      (∀ x y, lengthFits x → lengthFits y → WellFormed (mk x y) ∧ instrOpcode (mk x y) = op ∧
        instrSlotByte (mk x y) = h1 ∧
        encode (mk x y) = opcodeByte op :: h1 :: 0 :: 0 :: (lengthField x ++ lengthField y ++ x ++ y)) →
      ∃ i missing, WellFormed i ∧ instrOpcode i = op ∧ instrSlotByte i = h1 ∧ missing ≠ [] ∧
        opcodeByte op :: h1 :: 0 :: 0 :: body ++ missing = encode i := by
    intro mk hb hmk
    obtain ⟨m, x, y, hm, hx, hy, he⟩ := decodeL2_eq_incomplete hb
    obtain ⟨hw, ho, hs, hc⟩ := hmk x y hx hy
    exact ⟨mk x y, m, hw, ho, hs, hm, by rw [hc, ← he]; rfl⟩
  cases op with
  | init => cases h
  | final => cases h
  | hmacFinal => cases h
  | update => exact l1 h fun x hx => ⟨hx, rfl, rfl, rfl⟩
  | hash => exact l1 h fun x hx => ⟨hx, rfl, rfl, rfl⟩
  | hmacInit => exact l1 h fun x hx => ⟨hx, rfl, rfl, rfl⟩
  | hmacUpdate => exact l1 h fun x hx => ⟨hx, rfl, rfl, rfl⟩
  | buf => obtain rfl := h0 rfl; exact l1 h fun x hx => ⟨hx, rfl, rfl, rfl⟩
  | hmac => exact l2 h fun x y hx hy => ⟨⟨hx, hy⟩, rfl, rfl, rfl⟩
  | hmacBuf => obtain rfl := h0 rfl; exact l2 h fun x y hx hy => ⟨⟨hx, hy⟩, rfl, rfl, rfl⟩

end Sys2Proof.Laws
end

