-- ==== Sys2Proof/Laws/State.lean ====
section
/-! SUPPORT. One lemma per field per update of the state: each named operation, field by field. -/

namespace Sys2Proof.Laws

open Sys2Proof.Machine

@[simp] theorem take_slots (l : Nat) (s : State) : (s.take l).slots = s.slots := rfl

@[simp] theorem take_scr (l : Nat) (s : State) : (s.take l).scr = s.scr := rfl

@[simp] theorem take_status (l : Nat) (s : State) : (s.take l).status = s.status := rfl

@[simp] theorem take_cmdIn (l : Nat) (s : State) : (s.take l).cmdIn = s.cmdIn.drop l := rfl

@[simp] theorem take_rspOut (l : Nat) (s : State) : (s.take l).rspOut = s.rspOut := rfl

@[simp] theorem emit_slots (b : List Byte) (s : State) : (s.emit b).slots = s.slots := rfl

@[simp] theorem emit_scr (b : List Byte) (s : State) : (s.emit b).scr = s.scr := rfl

@[simp] theorem emit_status (b : List Byte) (s : State) : (s.emit b).status = s.status := rfl

@[simp] theorem emit_cmdIn (b : List Byte) (s : State) : (s.emit b).cmdIn = s.cmdIn := rfl

@[simp] theorem emit_rspOut (b : List Byte) (s : State) : (s.emit b).rspOut = s.rspOut ++ b := rfl

@[simp] theorem eraseScr_slots (s : State) : (s.eraseScr).slots = s.slots := rfl

@[simp] theorem eraseScr_scr (s : State) : (s.eraseScr).scr = Scr.erased := rfl

@[simp] theorem eraseScr_status (s : State) : (s.eraseScr).status = s.status := rfl

@[simp] theorem eraseScr_cmdIn (s : State) : (s.eraseScr).cmdIn = s.cmdIn := rfl

@[simp] theorem eraseScr_rspOut (s : State) : (s.eraseScr).rspOut = s.rspOut := rfl

@[simp] theorem setCtx_slot_slots (i : Nat) (c : Slot) (s : State) : (s.setCtx (.slot i) c).slots = s.slots.set i c := rfl

@[simp] theorem setCtx_slot_scr (i : Nat) (c : Slot) (s : State) : (s.setCtx (.slot i) c).scr = s.scr := rfl

@[simp] theorem setCtx_slot_status (i : Nat) (c : Slot) (s : State) : (s.setCtx (.slot i) c).status = s.status := rfl

@[simp] theorem setCtx_slot_cmdIn (i : Nat) (c : Slot) (s : State) : (s.setCtx (.slot i) c).cmdIn = s.cmdIn := rfl

@[simp] theorem setCtx_slot_rspOut (i : Nat) (c : Slot) (s : State) : (s.setCtx (.slot i) c).rspOut = s.rspOut := rfl

@[simp] theorem setCtx_tmp_slots (c : Slot) (s : State) : (s.setCtx .tmp c).slots = s.slots := rfl

@[simp] theorem setCtx_tmp_scr (c : Slot) (s : State) : (s.setCtx .tmp c).scr = { s.scr with t := c } := rfl

@[simp] theorem setCtx_tmp_status (c : Slot) (s : State) : (s.setCtx .tmp c).status = s.status := rfl

@[simp] theorem setCtx_tmp_cmdIn (c : Slot) (s : State) : (s.setCtx .tmp c).cmdIn = s.cmdIn := rfl

@[simp] theorem setCtx_tmp_rspOut (c : Slot) (s : State) : (s.setCtx .tmp c).rspOut = s.rspOut := rfl

@[simp] theorem eraseSlot_slots (i : Nat) (s : State) : (s.eraseSlot i).slots = s.slots.set i Slot.erased := rfl

@[simp] theorem eraseSlot_scr (i : Nat) (s : State) : (s.eraseSlot i).scr = s.scr := rfl

@[simp] theorem eraseSlot_status (i : Nat) (s : State) : (s.eraseSlot i).status = s.status := rfl

@[simp] theorem eraseSlot_cmdIn (i : Nat) (s : State) : (s.eraseSlot i).cmdIn = s.cmdIn := rfl

@[simp] theorem eraseSlot_rspOut (i : Nat) (s : State) : (s.eraseSlot i).rspOut = s.rspOut := rfl

@[simp] theorem runBlocks_slots (v : HashState) (bs : List Block) (s : State) : (s.runBlocks v bs).slots = s.slots := rfl

@[simp] theorem runBlocks_scr (v : HashState) (bs : List Block) (s : State) : (s.runBlocks v bs).scr = s.scr.compressAll v bs := rfl

@[simp] theorem runBlocks_status (v : HashState) (bs : List Block) (s : State) : (s.runBlocks v bs).status = s.status := rfl

@[simp] theorem runBlocks_cmdIn (v : HashState) (bs : List Block) (s : State) : (s.runBlocks v bs).cmdIn = s.cmdIn := rfl

@[simp] theorem runBlocks_rspOut (v : HashState) (bs : List Block) (s : State) : (s.runBlocks v bs).rspOut = s.rspOut := rfl

@[simp] theorem setDg_slots (d : Digest) (s : State) : (s.setDg d).slots = s.slots := rfl

@[simp] theorem setDg_scr (d : Digest) (s : State) : (s.setDg d).scr = { s.scr with dg := d } := rfl

@[simp] theorem setDg_status (d : Digest) (s : State) : (s.setDg d).status = s.status := rfl

@[simp] theorem setDg_cmdIn (d : Digest) (s : State) : (s.setDg d).cmdIn = s.cmdIn := rfl

@[simp] theorem setDg_rspOut (d : Digest) (s : State) : (s.setDg d).rspOut = s.rspOut := rfl

@[simp] theorem setKb_slots (b : Block) (s : State) : (s.setKb b).slots = s.slots := rfl

@[simp] theorem setKb_scr (b : Block) (s : State) : (s.setKb b).scr = { s.scr with kb := b } := rfl

@[simp] theorem setKb_status (b : Block) (s : State) : (s.setKb b).status = s.status := rfl

@[simp] theorem setKb_cmdIn (b : Block) (s : State) : (s.setKb b).cmdIn = s.cmdIn := rfl

@[simp] theorem setKb_rspOut (b : Block) (s : State) : (s.setKb b).rspOut = s.rspOut := rfl

@[simp] theorem setPb_slots (b : Block) (s : State) : (s.setPb b).slots = s.slots := rfl

@[simp] theorem setPb_scr (b : Block) (s : State) : (s.setPb b).scr = { s.scr with pb := b } := rfl

@[simp] theorem setPb_status (b : Block) (s : State) : (s.setPb b).status = s.status := rfl

@[simp] theorem setPb_cmdIn (b : Block) (s : State) : (s.setPb b).cmdIn = s.cmdIn := rfl

@[simp] theorem setPb_rspOut (b : Block) (s : State) : (s.setPb b).rspOut = s.rspOut := rfl

@[simp] theorem initAt_slot_slots (i : Nat) (s : State) : (s.initAt (.slot i)).slots = s.slots.set i initContext := rfl

@[simp] theorem initAt_slot_scr (i : Nat) (s : State) : (s.initAt (.slot i)).scr = s.scr := rfl

@[simp] theorem initAt_slot_status (i : Nat) (s : State) : (s.initAt (.slot i)).status = s.status := rfl

@[simp] theorem initAt_slot_cmdIn (i : Nat) (s : State) : (s.initAt (.slot i)).cmdIn = s.cmdIn := rfl

@[simp] theorem initAt_slot_rspOut (i : Nat) (s : State) : (s.initAt (.slot i)).rspOut = s.rspOut := rfl

@[simp] theorem initAt_tmp_slots (s : State) : (s.initAt .tmp).slots = s.slots := rfl

@[simp] theorem initAt_tmp_scr (s : State) : (s.initAt .tmp).scr = { s.scr with t := initContext } := rfl

@[simp] theorem initAt_tmp_status (s : State) : (s.initAt .tmp).status = s.status := rfl

@[simp] theorem initAt_tmp_cmdIn (s : State) : (s.initAt .tmp).cmdIn = s.cmdIn := rfl

@[simp] theorem initAt_tmp_rspOut (s : State) : (s.initAt .tmp).rspOut = s.rspOut := rfl

@[simp] theorem absorbAt_slot_slots (i : Nat) (x : List Byte) (s : State) : (s.absorbAt (.slot i) x).slots = s.slots.set i (absorb (s.slotAt i) x) := rfl

@[simp] theorem absorbAt_slot_scr (i : Nat) (x : List Byte) (s : State) : (s.absorbAt (.slot i) x).scr = s.scr.compressAll (s.slotAt i).v (absorbBlocks (s.slotAt i) x) := rfl

@[simp] theorem absorbAt_slot_status (i : Nat) (x : List Byte) (s : State) : (s.absorbAt (.slot i) x).status = s.status := rfl

@[simp] theorem absorbAt_slot_cmdIn (i : Nat) (x : List Byte) (s : State) : (s.absorbAt (.slot i) x).cmdIn = s.cmdIn := rfl

@[simp] theorem absorbAt_slot_rspOut (i : Nat) (x : List Byte) (s : State) : (s.absorbAt (.slot i) x).rspOut = s.rspOut := rfl

@[simp] theorem absorbAt_tmp_slots (x : List Byte) (s : State) : (s.absorbAt .tmp x).slots = s.slots := rfl

@[simp] theorem absorbAt_tmp_scr (x : List Byte) (s : State) : (s.absorbAt .tmp x).scr = { s.scr.compressAll s.scr.t.v (absorbBlocks s.scr.t x) with t := absorb s.scr.t x } := rfl

@[simp] theorem absorbAt_tmp_status (x : List Byte) (s : State) : (s.absorbAt .tmp x).status = s.status := rfl

@[simp] theorem absorbAt_tmp_cmdIn (x : List Byte) (s : State) : (s.absorbAt .tmp x).cmdIn = s.cmdIn := rfl

@[simp] theorem absorbAt_tmp_rspOut (x : List Byte) (s : State) : (s.absorbAt .tmp x).rspOut = s.rspOut := rfl

@[simp] theorem finalizeAt_slot_slots (i : Nat) (s : State) : (s.finalizeAt (.slot i)).slots = s.slots.set i { s.slotAt i with v := finalState (s.slotAt i) } := rfl

@[simp] theorem finalizeAt_slot_scr (i : Nat) (s : State) : (s.finalizeAt (.slot i)).scr = { s.scr.compressAll (s.slotAt i).v (padBlocks (s.slotAt i)) with dg := finalDigest (s.slotAt i) } := rfl

@[simp] theorem finalizeAt_slot_status (i : Nat) (s : State) : (s.finalizeAt (.slot i)).status = s.status := rfl

@[simp] theorem finalizeAt_slot_cmdIn (i : Nat) (s : State) : (s.finalizeAt (.slot i)).cmdIn = s.cmdIn := rfl

@[simp] theorem finalizeAt_slot_rspOut (i : Nat) (s : State) : (s.finalizeAt (.slot i)).rspOut = s.rspOut := rfl

@[simp] theorem finalizeAt_tmp_slots (s : State) : (s.finalizeAt .tmp).slots = s.slots := rfl

@[simp] theorem finalizeAt_tmp_scr (s : State) : (s.finalizeAt .tmp).scr = { s.scr.compressAll s.scr.t.v (padBlocks s.scr.t) with
        t := { s.scr.t with v := finalState s.scr.t }, dg := finalDigest s.scr.t } := rfl

@[simp] theorem finalizeAt_tmp_status (s : State) : (s.finalizeAt .tmp).status = s.status := rfl

@[simp] theorem finalizeAt_tmp_cmdIn (s : State) : (s.finalizeAt .tmp).cmdIn = s.cmdIn := rfl

@[simp] theorem finalizeAt_tmp_rspOut (s : State) : (s.finalizeAt .tmp).rspOut = s.rspOut := rfl

@[simp] theorem emitDg_slots (s : State) : (s.emitDg).slots = s.slots := rfl

@[simp] theorem emitDg_scr (s : State) : (s.emitDg).scr = s.scr := rfl

@[simp] theorem emitDg_status (s : State) : (s.emitDg).status = s.status := rfl

@[simp] theorem emitDg_cmdIn (s : State) : (s.emitDg).cmdIn = s.cmdIn := rfl

@[simp] theorem emitDg_rspOut (s : State) : (s.emitDg).rspOut = s.rspOut ++ s.scr.dg.toList := rfl

@[simp] theorem primeHmac_slots (i : Nat) (k : Block) (s : State) : (s.primeHmac i k).slots = s.slots.set i { s.slotAt i with okey := k, phase := .hmac } := rfl

@[simp] theorem primeHmac_scr (i : Nat) (k : Block) (s : State) : (s.primeHmac i k).scr = s.scr := rfl

@[simp] theorem primeHmac_status (i : Nat) (k : Block) (s : State) : (s.primeHmac i k).status = s.status := rfl

@[simp] theorem primeHmac_cmdIn (i : Nat) (k : Block) (s : State) : (s.primeHmac i k).cmdIn = s.cmdIn := rfl

@[simp] theorem primeHmac_rspOut (i : Nat) (k : Block) (s : State) : (s.primeHmac i k).rspOut = s.rspOut := rfl

@[simp] theorem raiseFault_slots (c : Cause) (h0 h1 : Byte) (s : State) : (s.raiseFault c h0 h1).slots = s.slots := rfl

@[simp] theorem raiseFault_scr (c : Cause) (h0 h1 : Byte) (s : State) : (s.raiseFault c h0 h1).scr = Scr.erased := rfl

@[simp] theorem raiseFault_status (c : Cause) (h0 h1 : Byte) (s : State) : (s.raiseFault c h0 h1).status = statusWord c h0 h1 := rfl

@[simp] theorem raiseFault_cmdIn (c : Cause) (h0 h1 : Byte) (s : State) : (s.raiseFault c h0 h1).cmdIn = s.cmdIn := rfl

@[simp] theorem raiseFault_rspOut (c : Cause) (h0 h1 : Byte) (s : State) : (s.raiseFault c h0 h1).rspOut = s.rspOut := rfl

/-! The compression engine's scratch leaves the other members of SCR alone. -/

@[simp] theorem compressAll_kb (z : Scr) (v : HashState) (bs : List Block) : (z.compressAll v bs).kb = z.kb := by
  induction bs generalizing z v with
  | nil => rfl
  | cons b bs ih => simp only [Scr.compressAll, ih, Scr.compress]

@[simp] theorem compressAll_pb (z : Scr) (v : HashState) (bs : List Block) : (z.compressAll v bs).pb = z.pb := by
  induction bs generalizing z v with
  | nil => rfl
  | cons b bs ih => simp only [Scr.compressAll, ih, Scr.compress]

@[simp] theorem compressAll_dg (z : Scr) (v : HashState) (bs : List Block) : (z.compressAll v bs).dg = z.dg := by
  induction bs generalizing z v with
  | nil => rfl
  | cons b bs ih => simp only [Scr.compressAll, ih, Scr.compress]

@[simp] theorem compressAll_t (z : Scr) (v : HashState) (bs : List Block) : (z.compressAll v bs).t = z.t := by
  induction bs generalizing z v with
  | nil => rfl
  | cons b bs ih => simp only [Scr.compressAll, ih, Scr.compress]

/-! Reading a slot. -/

@[simp] theorem nctx_eq (s : State) : s.nctx = s.slots.length := rfl

theorem slotAt_congr {s t : State} (h : s.slots = t.slots) (i : Nat) : s.slotAt i = t.slotAt i := by
  rw [State.slotAt, State.slotAt, h]

/-- A slot that exists is read where it stands. -/
theorem slotAt_eq_getElem {s : State} {i : Nat} (h : i < s.slots.length) : s.slotAt i = s.slots[i] := by
  rw [State.slotAt, List.getD_eq_getElem _ _ h]

theorem slotAt_set_self {l : List Slot} {i : Nat} (c : Slot) (h : i < l.length) :
    (l.set i c).getD i Slot.erased = c := by
  rw [List.getD_eq_getElem _ _ (by simpa using h), List.getElem_set_self]

theorem slotAt_set_ne {l : List Slot} {i j : Nat} (c : Slot) (h : i ≠ j) :
    (l.set i c).getD j Slot.erased = l.getD j Slot.erased := by
  simp [List.getD_eq_getElem?_getD, List.getElem?_set_ne h]

end Sys2Proof.Laws
end

