-- ==== Sys2Proof/Laws/Ops.lean ====
section
/-! SUPPORT. What each shared operation can do, said once: the header check, the running of a command, the key normalizer, the
outer hash, and the five bodies the ten meanings are made of. -/

namespace Sys2Proof.Laws

open Sys2Proof.Machine

/-! The header check (R80 steps 3 and 4). -/

theorem headerFault_noSlot {op : Opcode} (h1 : Byte) (s : State) (h : opcodeNamesSlot op = false) :
    headerFault op h1 s = none := by simp [headerFault, h]

theorem headerFault_badSlot {op : Opcode} {h1 : Byte} {s : State} (h : opcodeNamesSlot op = true)
    (hs : s.nctx ≤ h1.toNat) : headerFault op h1 s = some .badSlot := by
  rw [headerFault, if_pos h, if_pos hs]

theorem headerFault_lifecycle {op : Opcode} {h1 : Byte} {s : State} (h : opcodeNamesSlot op = true)
    (hs : h1.toNat < s.nctx) (hp : phaseAllows op (s.slotAt h1.toNat).phase = false) :
    headerFault op h1 s = some .lifecycleFault := by
  rw [headerFault, if_pos h, if_neg (Nat.not_le.mpr hs), hp]
  rfl

theorem headerFault_none {op : Opcode} {h1 : Byte} {s : State} (hs : h1.toNat < s.nctx)
    (hp : phaseAllows op (s.slotAt h1.toNat).phase = true) : headerFault op h1 s = none := by
  rw [headerFault, if_neg (Nat.not_le.mpr hs), if_pos hp]
  split <;> rfl

/-- What an admitted command that names a slot has met. -/
theorem of_headerFault_none {op : Opcode} {h1 : Byte} {s : State} (h : headerFault op h1 s = none)
    (hop : opcodeNamesSlot op = true) :
    h1.toNat < s.nctx ∧ phaseAllows op (s.slotAt h1.toNat).phase = true := by
  rw [headerFault, if_pos hop] at h
  split at h
  · cases h
  · rename_i hs
    split at h
    · rename_i hp
      exact ⟨Nat.not_le.mp hs, hp⟩
    · cases h

/-- The header check reads the number of slots and the named slot's phase alone (R220). -/
theorem headerFault_congr {op : Opcode} {h1 : Byte} {s t : State} (hn : s.nctx = t.nctx)
    (hp : (s.slotAt h1.toNat).phase = (t.slotAt h1.toNat).phase) :
    headerFault op h1 s = headerFault op h1 t := by
  rw [headerFault, headerFault, hn, hp]

/-! Running a command (R80 step 6). -/

theorem runCommand_admitted {op : Opcode} {h1 : Byte} {s : State} (len : Nat) (body : State → State)
    (h : headerFault op h1 s = none) : runCommand op h1 len body s = .next (body (s.take len)) := by
  rw [runCommand, h]

theorem runCommand_faulted {op : Opcode} {h1 : Byte} {s : State} {c : Cause} (len : Nat) (body : State → State)
    (h : headerFault op h1 s = some c) :
    runCommand op h1 len body s = .next (s.raiseFault c (opcodeByte op) h1) := by
  rw [runCommand, h]

/-- All that running a command can do. -/
theorem runCommand_cases {op : Opcode} {h1 : Byte} {len : Nat} {body : State → State} {s t : State}
    (h : runCommand op h1 len body s = .next t) :
    (headerFault op h1 s = none ∧ t = body (s.take len)) ∨
      (∃ c, headerFault op h1 s = some c ∧ t = s.raiseFault c (opcodeByte op) h1) := by
  cases hf : headerFault op h1 s with
  | none =>
    rw [runCommand_admitted len body hf] at h
    cases h
    exact .inl ⟨rfl, rfl⟩
  | some c =>
    rw [runCommand_faulted len body hf] at h
    cases h
    exact .inr ⟨c, rfl, rfl⟩

/-! The key normalizer and the outer hash touch SCR alone. -/

theorem normKeyToKb_kb (y : List Byte) (s : State) : (s.normKeyToKb y).scr.kb = normKey y := by
  rw [State.normKeyToKb, normKey]
  split <;> rfl

theorem normKeyToKb_slots (y : List Byte) (s : State) : (s.normKeyToKb y).slots = s.slots := by
  rw [State.normKeyToKb]
  split <;> rfl

theorem normKeyToKb_status (y : List Byte) (s : State) : (s.normKeyToKb y).status = s.status := by
  rw [State.normKeyToKb]
  split <;> rfl

theorem normKeyToKb_cmdIn (y : List Byte) (s : State) : (s.normKeyToKb y).cmdIn = s.cmdIn := by
  rw [State.normKeyToKb]
  split <;> rfl

theorem normKeyToKb_rspOut (y : List Byte) (s : State) : (s.normKeyToKb y).rspOut = s.rspOut := by
  rw [State.normKeyToKb]
  split <;> rfl

/-- The outer hash stages the digest of the outer pad key followed by the digest staged before (R180). -/
theorem outerHash_dg (k : Block) (s : State) :
    (s.outerHash k).scr.dg = finalDigest (absorb (absorb initContext k.toList) s.scr.dg.toList) := rfl

theorem outerHash_slots (k : Block) (s : State) : (s.outerHash k).slots = s.slots := rfl

theorem outerHash_status (k : Block) (s : State) : (s.outerHash k).status = s.status := rfl

theorem outerHash_cmdIn (k : Block) (s : State) : (s.outerHash k).cmdIn = s.cmdIn := rfl

theorem outerHash_rspOut (k : Block) (s : State) : (s.outerHash k).rspOut = s.rspOut := rfl

theorem outerHash_kb (k : Block) (s : State) : (s.outerHash k).scr.kb = s.scr.kb := by
  simp [State.outerHash]

/-! The bodies: the whole state each leaves. -/

theorem initBody_eq (i : Nat) (s : State) :
    s.initBody i = { s with slots := s.slots.set i initContext, scr := Scr.erased } := rfl

theorem updateBody_eq (i : Nat) (x : List Byte) (s : State) :
    s.updateBody i x = { s with slots := s.slots.set i (absorb (s.slotAt i) x), scr := Scr.erased } := rfl

theorem hmacUpdateBody_eq (i : Nat) (x : List Byte) (s : State) :
    s.hmacUpdateBody i x = { s with slots := s.slots.set i (absorb (s.slotAt i) x), scr := Scr.erased } := rfl

/-- The step of FINAL after the packet is consumed (R150). -/
theorem finalBody_eq (i : Nat) (s : State) :
    s.finalBody i =
      { s with
        slots := s.slots.set i Slot.erased
        scr := Scr.erased
        rspOut := s.rspOut ++ stateBytes (finalState (s.slotAt i)) } := by
  rw [← finalDigest_toList]
  simp only [State.finalBody, State.eraseScr, State.eraseSlot, State.setCtx, State.emitDg, State.emit, State.finalizeAt,
    State.setDg, State.runBlocks, State.ctx, List.set_set]

/-- The step of HASH (R165) on a slot that exists. -/
theorem hashBody_eq {i : Nat} (x : List Byte) {s : State} (hi : i < s.slots.length) :
    s.hashBody i x =
      { s with
        slots := s.slots.set i Slot.erased
        scr := Scr.erased
        rspOut := s.rspOut ++ (sm3 x).toList } := by
  have h : s.hashBody i x = ((s.initAt (.slot i)).absorbAt (.slot i) x).finalBody i := rfl
  rw [h, finalBody_eq, sm3, finalDigest_toList]
  simp only [State.absorbAt, State.initAt, State.setCtx, State.ctx, State.runBlocks, State.slotAt, slotAt_set_self _ hi,
    List.set_set]

/-- The step of BUF (R166). -/
theorem bufBody_eq (x : List Byte) (s : State) :
    s.bufBody x = { s with scr := Scr.erased, rspOut := s.rspOut ++ (sm3 x).toList } := rfl

/-- The step of HMAC_INIT (R178) on a slot that exists. -/
theorem hmacInitBody_eq {i : Nat} (y : List Byte) {s : State} (hi : i < s.slots.length) :
    s.hmacInitBody i y =
      { s with
        slots := s.slots.set i ⟨cf iv (innerPad y), 512, blockOf [], outerPad y, .hmac⟩
        scr := Scr.erased } := by
  have hk := normKeyToKb_kb y s
  simp only [State.hmacInitBody, State.padToPb, State.primeHmac, State.eraseScr, State.setCtx, State.absorbAt,
    State.initAt, State.runBlocks, State.ctx, State.setPb, State.slotAt, normKeyToKb_slots, normKeyToKb_status,
    normKeyToKb_cmdIn, normKeyToKb_rspOut, compressAll_kb, hk, List.set_set, slotAt_set_self _ hi,
    absorb_initContext_block, innerPad, outerPad]

/-- The step of HMAC_FINAL (R180) on a slot that exists. -/
theorem hmacFinalBody_eq {i : Nat} {s : State} (hi : i < s.slots.length) :
    s.hmacFinalBody i =
      { s with
        slots := s.slots.set i Slot.erased
        scr := Scr.erased
        rspOut := s.rspOut ++
          (finalDigest (absorb (absorb initContext (s.slotAt i).okey.toList)
            (stateBytes (finalState (s.slotAt i))))).toList } := by
  have hok : ((s.finalizeAt (.slot i)).slotAt i).okey = (s.slotAt i).okey := by
    rw [State.slotAt, finalizeAt_slot_slots, slotAt_set_self _ hi]
  rw [← finalDigest_toList]
  simp only [State.hmacFinalBody, hok]
  simp only [State.eraseScr, State.eraseSlot, State.setCtx, State.emitDg, State.emit, outerHash_slots, outerHash_status,
    outerHash_cmdIn, outerHash_rspOut, outerHash_dg, finalizeAt_slot_slots, finalizeAt_slot_status,
    finalizeAt_slot_cmdIn, finalizeAt_slot_rspOut, finalizeAt_slot_scr, List.set_set]

/-- The step of HMAC_BUF (R182): the inner digest is that of the inner pad block followed by the data, the response the
digest of the outer pad key followed by it, each absorbed in two pieces. -/
theorem hmacBufBody_eq (x y : List Byte) (s : State) :
    s.hmacBufBody x y =
      { s with
        scr := Scr.erased
        rspOut := s.rspOut ++
          (finalDigest (absorb (absorb initContext (outerPad y).toList)
            (finalDigest (absorb (absorb initContext (innerPad y).toList) x)).toList)).toList } := by
  simp only [State.hmacBufBody, State.eraseScr, State.emitDg, State.emit, outerHash_slots, outerHash_status,
    outerHash_cmdIn, outerHash_rspOut, outerHash_dg, finalizeAt_tmp_slots, finalizeAt_tmp_status, finalizeAt_tmp_cmdIn,
    finalizeAt_tmp_rspOut, finalizeAt_tmp_scr, absorbAt_tmp_slots, absorbAt_tmp_status, absorbAt_tmp_cmdIn,
    absorbAt_tmp_rspOut, absorbAt_tmp_scr, initAt_tmp_slots, initAt_tmp_status, initAt_tmp_cmdIn, initAt_tmp_rspOut,
    initAt_tmp_scr, compressAll_kb, State.padToPb, setPb_slots, setPb_scr, setPb_status, setPb_cmdIn, setPb_rspOut,
    normKeyToKb_slots, normKeyToKb_status, normKeyToKb_cmdIn, normKeyToKb_rspOut, normKeyToKb_kb, innerPad, outerPad]

end Sys2Proof.Laws
end

