-- ==== Sys2Proof/Laws/PerInstr.lean ====
section
/-! SUPPORT. Facts of each command as syntax, one lemma per constructor: its packet begins with its own header, is as long as
its packet length says (R81), and is never shorter than a header. -/

namespace Sys2Proof.Laws.PacketShape

/-- The packet begins with the command's OP and SLOT bytes and two zero bytes (R71), and its length is the packet length (R81). -/
def Statement (i : Instr) : Prop :=
  (encode i).take 4 = [opcodeByte (instrOpcode i), instrSlotByte i, 0, 0] ∧
    (encode i).length = packetLength i ∧ 4 ≤ (encode i).length

/-- The shape follows from the command's format alone (R73 to R75, R81). -/
theorem of_format (i : Instr) : Statement i := by
  refine ⟨rfl, ?_⟩
  cases h : opcodeFormat (instrOpcode i) <;> simp [encode, packetLength, h, length_lengthField] <;> omega

theorem init (slot : Byte) : Statement (.init slot) := of_format _

theorem update (slot : Byte) (data : List Byte) : Statement (.update slot data) := of_format _

theorem final (slot : Byte) : Statement (.final slot) := of_format _

theorem hash (slot : Byte) (data : List Byte) : Statement (.hash slot data) := of_format _

theorem buf (data : List Byte) : Statement (.buf data) := of_format _

theorem hmacInit (slot : Byte) (key : List Byte) : Statement (.hmacInit slot key) := of_format _

theorem hmacUpdate (slot : Byte) (data : List Byte) : Statement (.hmacUpdate slot data) := of_format _

theorem hmacFinal (slot : Byte) : Statement (.hmacFinal slot) := of_format _

theorem hmac (slot : Byte) (data key : List Byte) : Statement (.hmac slot data key) := of_format _

theorem hmacBuf (data key : List Byte) : Statement (.hmacBuf data key) := of_format _

end Sys2Proof.Laws.PacketShape
end

