-- ==== Sys2Proof/Laws/Step.lean ====
section
/-! SUPPORT. What the decode step and a step can do, said once. -/

namespace Sys2Proof.Laws

open Sys2Proof.Machine

/-- The body of each command: what its rule does to the state once its packet is consumed. -/
def commandBody : Instr → State → State
  | .init slot => State.initBody slot.toNat
  | .update slot x => State.updateBody slot.toNat x
  | .final slot => State.finalBody slot.toNat
  | .hash slot x => State.hashBody slot.toNat x
  | .buf x => State.bufBody x
  | .hmacInit slot y => State.hmacInitBody slot.toNat y
  | .hmacUpdate slot x => State.hmacUpdateBody slot.toNat x
  | .hmacFinal slot => State.hmacFinalBody slot.toNat
  | .hmac slot x y => State.hmacBody slot.toNat x y
  | .hmacBuf x y => State.hmacBufBody x y

/-- Every meaning runs one command: the header check of its own opcode and SLOT byte, its packet's length, its body. -/
theorem exec_eq_runCommand (i : Instr) (s : State) :
    exec i s = runCommand (instrOpcode i) (instrSlotByte i) (packetLength i) (commandBody i) s := by
  cases i <;> rfl

/-- An admitted command consumes its packet and applies its body (R80 step 6). -/
theorem exec_admitted {i : Instr} {s : State} (h : headerFault (instrOpcode i) (instrSlotByte i) s = none) :
    exec i s = .next (commandBody i (s.take (packetLength i))) := by
  rw [exec_eq_runCommand, runCommand_admitted _ _ h]

/-- A command whose header faults takes the fault (R224). -/
theorem exec_faulted {i : Instr} {s : State} {c : Cause}
    (h : headerFault (instrOpcode i) (instrSlotByte i) s = some c) :
    exec i s = .next (s.raiseFault c (opcodeByte (instrOpcode i)) (instrSlotByte i)) := by
  rw [exec_eq_runCommand, runCommand_faulted _ _ h]

/-- A step's next state comes from a header fault or from a command (R80). -/
theorem step_cases {s t : State} (h : step s = .next t) :
    (∃ c h0 h1, fetch s = .raise c h0 h1 ∧ t = s.raiseFault c h0 h1) ∨ (∃ i, fetch s = .run i ∧ exec i s = .next t) := by
  rw [step] at h
  split at h
  · cases h
  · cases h
  · rename_i c h0 h1 hf
    cases h
    exact .inl ⟨c, h0, h1, hf, rfl⟩
  · rename_i i hf
    exact .inr ⟨i, hf, h⟩

theorem fetch_halted {s : State} (h : s.halted = true) : fetch s = .halted := by rw [fetch, if_pos h]

/-- The decode step finds a command to run only in a whole packet that is admitted (R80). -/
theorem of_fetch_run {s : State} {i : Instr} (h : fetch s = .run i) :
    s.halted = false ∧ headerFault (instrOpcode i) (instrSlotByte i) s = none ∧
      ∃ rest, decode s.cmdIn = .packet i rest := by
  rw [fetch] at h
  split at h
  · cases h
  · rename_i hh
    split at h
    · cases h
    · cases h
    · rename_i op h1 body hd
      obtain ⟨-, h0⟩ := decodeHeader_eq_command hd
      split at h
      · cases h
      · rename_i hf
        split at h
        · rename_i i' rest hb
          cases h
          obtain ⟨rfl, rfl⟩ := instr_of_decodeBody hb h0
          exact ⟨by simpa using hh, hf, rest, by rw [decode, hd]; exact hb⟩
        · cases h
        · cases h

/-- A fault of the decode step names the first two bytes of CMD_IN (R224). -/
theorem of_fetch_raise {s : State} {c : Cause} {h0 h1 : Byte} (h : fetch s = .raise c h0 h1) :
    s.halted = false ∧ ∃ rest, s.cmdIn = h0 :: h1 :: rest := by
  rw [fetch] at h
  split at h
  · cases h
  · rename_i hh
    refine ⟨by simpa using hh, ?_⟩
    split at h
    · cases h
    · rename_i a b hd
      cases h
      obtain ⟨h2, h3, body, hb⟩ := bytes_of_decodeHeader_illegal hd
      exact ⟨_, hb⟩
    · rename_i op b body hd
      obtain ⟨hb, -⟩ := decodeHeader_eq_command hd
      split at h
      · cases h
        exact ⟨_, hb⟩
      · split at h
        · cases h
        · cases h
        · rename_i hbad
          exact absurd hbad (decodeBody_ne_illegal _ _ _ _ _)

/-- The decode step waits only for the rest of a header or of an admitted packet (R82). -/
theorem of_fetch_waiting {s : State} (h : fetch s = .waiting) :
    s.halted = false ∧
      (s.cmdIn.length < 4 ∨ ∃ i missing, WellFormed i ∧ headerFault (instrOpcode i) (instrSlotByte i) s = none ∧
        missing ≠ [] ∧ s.cmdIn ++ missing = encode i) := by
  rw [fetch] at h
  split at h
  · cases h
  · rename_i hh
    refine ⟨by simpa using hh, ?_⟩
    split at h
    · rename_i hd
      exact .inl (length_of_decodeHeader_short hd)
    · cases h
    · rename_i op h1 body hd
      obtain ⟨hbytes, h0⟩ := decodeHeader_eq_command hd
      split at h
      · cases h
      · rename_i hf
        split at h
        · cases h
        · rename_i hb
          obtain ⟨i, missing, hw, rfl, rfl, hm, he⟩ := encode_of_decodeBody_incomplete hb h0
          exact .inr ⟨i, missing, hw, hf, hm, by rw [hbytes]; exact he⟩
        · cases h

/-- A whole packet at the front of CMD_IN of an engine that is not halted is run, or its header faults (R80). -/
theorem fetch_of_decode {s : State} {i : Instr} {rest : List Byte} (hh : s.halted = false)
    (h : decode s.cmdIn = .packet i rest) :
    fetch s = match headerFault (instrOpcode i) (instrSlotByte i) s with
      | some c => .raise c (opcodeByte (instrOpcode i)) (instrSlotByte i)
      | none => .run i := by
  rw [decode] at h
  split at h
  · cases h
  · cases h
  · rename_i op h1 body hd
    obtain ⟨-, h0⟩ := decodeHeader_eq_command hd
    obtain ⟨rfl, rfl⟩ := instr_of_decodeBody h h0
    rw [fetch, if_neg (by simp [hh]), hd]
    dsimp only
    cases headerFault (instrOpcode i) (instrSlotByte i) s with
    | none => simp only [h]
    | some c => rfl

end Sys2Proof.Laws
end

