-- ==== Sys2Proof/Tests/Slice0.lean ====
section
/-! SUPPORT. The model's own tests. Expected values stand in spec/95_test_vectors.md (the section is named at each), or were
written out by hand from the rule named. The second half holds a witness for the hypotheses of every obligation that has some. -/

namespace Sys2Proof.Tests

open Sys2Proof.Machine

/-! Helpers. -/

/-- The `k` bytes of a number, most significant first. -/
def bytesOf (k n : Nat) : List Byte := (List.range k).map fun i => BitVec.ofNat 8 (n / 256 ^ (k - 1 - i))

/-- `k` bytes counting up from `a`. -/
def countFrom (a k : Nat) : List Byte := (List.range k).map fun i => BitVec.ofNat 8 (a + i)

def abc : List Byte := [0x61, 0x62, 0x63]
def jefe : List Byte := [0x4a, 0x65, 0x66, 0x65]
def hiThere : List Byte := [0x48, 0x69, 0x20, 0x54, 0x68, 0x65, 0x72, 0x65]
def abcd16 : List Byte := (List.replicate 16 [(0x61 : Byte), 0x62, 0x63, 0x64]).flatten
def whatDoYaWant : List Byte := bytesOf 28 0x7768617420646f2079612077616e7420666f72206e6f7468696e673f

/-- The padded block of "abc" (section 3). -/
def abcBlock : Block := blockOf (abc ++ [0x80] ++ rep 0 59 ++ [0x18])

/-- Slot 1 after `HMAC_INIT 1, "Jefe"` (section 6), its words written out. -/
def jefeSlot : Slot where
  v := ⟨0x14b82ae5, 0x075dde6e, 0x140bae38, 0xb627d246, 0x994ccb96, 0x495c1571, 0xedaab545, 0xf34846f6⟩
  n := 512
  buf := blockOf []
  okey := blockOf ([0x16, 0x39, 0x3a, 0x39] ++ rep 0x5c 60)
  phase := .hmac

/-- Two slots: slot 0 in phase HASH with nothing absorbed, slot 1 in phase HMAC with the key "Jefe". -/
def busy : State := { State.reset with slots := [initContext, jefeSlot] }

/-- The state `s` with `bytes` on CMD_IN. -/
def sent (s : State) (bytes : List Byte) : State := { s with cmdIn := bytes }

/-- A halted engine: the state after `UPDATE 0, "a"` on an IDLE slot. -/
def halted : State := { sent State.reset (bytesOf 13 0x02000000000000000000000161) with status := 0x00020031 }

/-- What a command answers, with `f` read off the next state. -/
def after {α : Type} (o : Host.Outcome State Fault Refusal) (f : State → α) : Option α := (nextState? o).map f

theorem next_of_after {o : Host.Outcome State Fault Refusal} (h : (nextState? o).isSome = true) : ∃ t, o = .next t := by
  cases o with
  | next t => exact ⟨t, rfl⟩
  | fault r => cases h
  | refused r => cases h

theorem nctx_resetOf (n : Nat) : (State.resetOf n).nctx = n := List.length_replicate

/-! WellFormed: an operand longer than its length field can say is refused, in every command that has one. -/

theorem long_operand : ¬ lengthFits (List.replicate (2 ^ 64) (0 : Byte)) := by
  rw [lengthFits, List.length_replicate]
  exact Nat.lt_irrefl _

theorem test_illFormed_update : ¬ WellFormed (.update 0 (List.replicate (2 ^ 64) 0)) := long_operand
theorem test_illFormed_hash : ¬ WellFormed (.hash 0 (List.replicate (2 ^ 64) 0)) := long_operand
theorem test_illFormed_buf : ¬ WellFormed (.buf (List.replicate (2 ^ 64) 0)) := long_operand
theorem test_illFormed_hmacInit : ¬ WellFormed (.hmacInit 0 (List.replicate (2 ^ 64) 0)) := long_operand
theorem test_illFormed_hmacUpdate : ¬ WellFormed (.hmacUpdate 0 (List.replicate (2 ^ 64) 0)) := long_operand
theorem test_illFormed_hmac_data : ¬ WellFormed (.hmac 0 (List.replicate (2 ^ 64) 0) []) := fun h => long_operand h.1
theorem test_illFormed_hmac_key : ¬ WellFormed (.hmac 0 [] (List.replicate (2 ^ 64) 0)) := fun h => long_operand h.2
theorem test_illFormed_hmacBuf_data : ¬ WellFormed (.hmacBuf (List.replicate (2 ^ 64) 0) []) := fun h => long_operand h.1
theorem test_illFormed_hmacBuf_key : ¬ WellFormed (.hmacBuf [] (List.replicate (2 ^ 64) 0)) := fun h => long_operand h.2

/-! Decoding: the packets of section 8, one for every command. -/

theorem test_decode_init : decode (bytesOf 4 0x01010000) = .packet (.init 1) [] := by decide
theorem test_decode_update : decode (bytesOf 13 0x02000000000000000000000161) = .packet (.update 0 [0x61]) [] := by decide
theorem test_decode_final : decode (bytesOf 4 0x03000000) = .packet (.final 0) [] := by decide
theorem test_decode_hash : decode (bytesOf 12 0x040100000000000000000000) = .packet (.hash 1 []) [] := by decide
theorem test_decode_buf : decode (bytesOf 15 0x050000000000000000000003616263) = .packet (.buf abc) [] := by decide
theorem test_decode_hmacInit :
    decode (bytesOf 16 0x110100000000000000000004_4a656665) = .packet (.hmacInit 1 jefe) [] := by decide
theorem test_decode_hmacUpdate :
    decode (bytesOf 15 0x120100000000000000000003486920) = .packet (.hmacUpdate 1 [0x48, 0x69, 0x20]) [] := by decide
theorem test_decode_hmacFinal : decode (bytesOf 4 0x13010000) = .packet (.hmacFinal 1) [] := by decide
/-- Data before key: the two length fields, the eight data bytes, the 32 key bytes. -/
theorem test_decode_hmac :
    decode (bytesOf 20 0x1400000000000000000000080000000000000020 ++ hiThere ++ rep 0x0b 32) =
      .packet (.hmac 0 hiThere (rep 0x0b 32)) [] := by decide +kernel
theorem test_decode_hmacBuf :
    decode (bytesOf 23 0x1500000000000000000000030000000000000000616263) = .packet (.hmacBuf abc []) [] := by decide
/-- What follows a packet is left for the next one (R81). -/
theorem test_decode_rest : decode (bytesOf 8 0x0100000003000000) = .packet (.init 0) (bytesOf 4 0x03000000) := by decide

/-! The faults of section 8: STATUS after the step, on an engine out of reset with two slots. -/

/-- STATUS after the step, where CMD_IN, the slots and RSP_OUT are unchanged. -/
def faultStatus (bytes : List Byte) : Option (BitVec 32) :=
  (nextState? (step (sent State.reset bytes))).bind fun t =>
    if t.cmdIn = bytes ∧ t.slots = State.reset.slots ∧ t.rspOut = [] then some t.status else none

theorem test_fault_illegal :
    faultStatus (bytesOf 4 0x00000000) = some 0x00000011 ∧ faultStatus (bytesOf 4 0x07090000) = some 0x00070911 ∧
    faultStatus (bytesOf 4 0x01000001) = some 0x00010011 ∧ faultStatus (bytesOf 4 0x03010080) = some 0x00030111 ∧
    faultStatus (bytesOf 4 0x03020001) = some 0x00030211 ∧ faultStatus (bytesOf 12 0x050100000000000000000000) = some 0x00050111 ∧
    faultStatus (bytesOf 4 0x15020000) = some 0x00150211 := by decide +kernel
theorem test_fault_badSlot :
    faultStatus (bytesOf 4 0x01020000) = some 0x00010221 ∧
    faultStatus (bytesOf 12 0x020500000000000000000000) = some 0x00020521 := by decide +kernel
theorem test_fault_lifecycle :
    faultStatus (bytesOf 13 0x02000000000000000000000161) = some 0x00020031 ∧
    faultStatus (bytesOf 4 0x13010000) = some 0x00130131 := by decide +kernel
/-- With one slot, `HASH 1, ""` raises BadSlot. -/
theorem test_fault_one_slot :
    after (step (sent (State.resetOf 1) (bytesOf 12 0x040100000000000000000000))) State.status = some 0x00040121 := by
  decide +kernel
/-- P10 of section 9: four header bytes and six of the eight bytes of LEN are no step; a halted engine has none either. -/
theorem test_no_step :
    step (sent busy (bytesOf 10 0x02000000000000000000)) = .fault .waiting ∧ step halted = .fault .halted := ⟨rfl, rfl⟩

/-! Word functions and constants (section 2). -/

theorem test_p0 : p0 0x00000001 = 0x00020201 ∧ p0 0x80000000 = 0x80010100 ∧ p0 0x12345678 = 0xd6688234 := by decide
theorem test_p1 : p1 0x00000001 = 0x00808001 ∧ p1 0x12345678 = 0x05014549 ∧ p1 0x61626380 = 0x9092e200 := by decide
theorem test_rotl : rotl 0x12345678 12 = 0x45678123 ∧ rotl 0x80000000 1 = 0x00000001 ∧ rotl 0x12345678 0 = 0x12345678 := by
  decide
theorem test_ff :
    ff 15 0x0f0f0f0f 0x33333333 0x55555555 = 0x69696969 ∧ ff 16 0x7380166f 0x4914b2b9 0x172442d7 = 0x530412ff := by decide
theorem test_gg :
    gg 15 0x0f0f0f0f 0x33333333 0x55555555 = 0x69696969 ∧ gg 16 0x7380166f 0x4914b2b9 0x172442d7 = 0x452452b9 := by decide
theorem test_bytes :
    be32 [0x61, 0x62, 0x63, 0x80] = 0x61626380 ∧ toBe32 0x61626380 = [0x61, 0x62, 0x63, 0x80] ∧
    toBe64 8000 = [0, 0, 0, 0, 0, 0, 0x1f, 0x40] := by decide

/-! The compression engine (sections 3 and 4). -/

/-- W[16..19], W[67], W1[11], W1[63] of the padded block of "abc". -/
theorem test_schedule :
    ((expand abcBlock).w.toList.drop 16).take 4 = [0x9092e200, 0x00000000, 0x000c0606, 0x719c70ed] ∧
    (expand abcBlock).w.toList.getD 67 0 = 0xb99c0545 ∧ (expand abcBlock).w1.toList.getD 11 0 = 0x00000018 ∧
    (expand abcBlock).w1.toList.getD 63 0 = 0x49e260d5 := by decide +kernel
/-- Round 16 of section 3, the first with the majority and choose functions. -/
theorem test_round :
    Machine.round (expand abcBlock)
      ⟨⟨0x34d1691e, 0x7c529778, 0x92b57849, 0x979ab113, 0x61f99646, 0x3ee95933, 0x2aa0d251, 0xdb131b86⟩, 0, 0, 0⟩ 16 =
    ⟨⟨0x796afab1, 0x34d1691e, 0xa52ef0f8, 0x92b57849, 0x067550f5, 0x61f99646, 0xc999f74a, 0x2aa0d251⟩,
      0x0afa0d0b, 0x796afab1, 0xa1895aa4⟩ := by decide +kernel
theorem test_cf_zero :
    cf HashState.zero (blockOf []) =
      ⟨0x2762550f, 0x18134933, 0xba35ce4e, 0x0a757e65, 0x8c0e7205, 0xfe9e4ff6, 0x5ac5c88b, 0xa3649ac2⟩ := by decide +kernel

/-! The commands. -/

/-- Row 2 of section 6. -/
theorem test_init :
    after (exec (.init 1) busy) (fun t => t.image 1) =
      some (some (bytesOf 32 0x7380166f4914b2b9172442d7da8a0600a96f30bc163138aae38dee4db0fb0e4e ++ rep 0 136 ++ [1] ++
        rep 0 7)) := by decide +kernel
/-- Row 3 of section 6. -/
theorem test_update_abc :
    after (exec (.update 0 abc) busy) (fun t => t.slotAt 0) = some { initContext with n := 24, buf := blockOf abc } := by
  decide +kernel
/-- Row 5 of section 6: one block compressed, three bytes left. -/
theorem test_update_block :
    after (exec (.update 0 (abcd16 ++ [0x78, 0x79, 0x7a])) busy) (fun t => t.slotAt 0) =
      some
        { initContext with
          v := ⟨0x5950de81, 0x468664eb, 0x42fd4c86, 0x1e7ca00a, 0xc0a5910b, 0xae9a55ea, 0x1adb8d17, 0x763ca222⟩
          n := 0x218
          buf := blockOf [0x78, 0x79, 0x7a] } := by decide +kernel
/-- P1 of section 9: the digest of "abc", and the slot's image all zero. -/
theorem test_final :
    after (exec (.final 0) { busy with slots := [absorb initContext abc, jefeSlot] })
        (fun t => (t.rspOut, t.image 0)) =
      some (bytesOf 32 0x66c7f0f462eeedd9d1f2d46bdc10e4e24167c4875cf2f7a2297da02b8f4ba8e0, some (rep 0 176)) := by
  decide +kernel
/-- Section 5, 56 bytes: the two-block padding; the slot's HMAC context is discarded. -/
theorem test_hash :
    after (exec (.hash 1 (rep 0x61 56)) busy) (fun t => (t.rspOut, t.slotAt 1)) =
      some (bytesOf 32 0xba00ebedaab54065a5fd4f9f56326016203166bcee3eed44ea868d59d67aa3c8, Slot.erased) := by
  decide +kernel
/-- Section 5, 55 bytes: no zero byte between 0x80 and the suffix; no slot changes. -/
theorem test_buf :
    after (exec (.buf (rep 0x61 55)) busy) (fun t => (t.rspOut, t.slots)) =
      some (bytesOf 32 0x288337eef51eec62e7544d7270424c8dbe656254c99852870a73b2453a6a7fb1, busy.slots) := by
  decide +kernel
/-- Section 6: the slot after `HMAC_INIT 1, "Jefe"`. -/
theorem test_hmacInit :
    after (exec (.hmacInit 1 jefe) State.reset) (fun t => t.slotAt 1) = some jefeSlot := by decide +kernel
/-- Section 7, the 65-byte key: OKEY is its digest with opad, `c8 ^ 5c = 94` the first byte. -/
theorem test_hmacInit_long_key :
    after (exec (.hmacInit 0 (countFrom 0 65)) State.reset) (fun t => (t.slotAt 0).okey) =
      some (xorByte (blockOf (bytesOf 32 0xc886e6814be748285a10b28ae62ddacd85db830cd2cf3a2bfa2f729c15f63618)) 0x5c) := by
  decide +kernel
/-- R179's worked example: `N = 640` and the 16 bytes pending. -/
theorem test_hmacUpdate :
    after (exec (.hmacUpdate 1 (whatDoYaWant.take 16)) busy) (fun t => t.slotAt 1) =
      some { jefeSlot with n := 640, buf := blockOf (bytesOf 16 0x7768617420646f2079612077616e7420) } := by decide +kernel
/-- The source's vector 4 (section 1). -/
theorem test_hmacFinal :
    after (exec (.hmacFinal 1) { busy with slots := [initContext, absorb jefeSlot whatDoYaWant] })
        (fun t => (t.rspOut, t.slotAt 1)) =
      some (bytesOf 32 0x2e87f1d16862e6d964b50a5200bf2b10b764faa9680a296a2405f24bec39f882, Slot.erased) := by
  decide +kernel
/-- The source's vector 2 (section 1). -/
theorem test_hmac :
    after (exec (.hmac 0 (rep 0xcd 50) (countFrom 1 37)) busy) (fun t => (t.rspOut, t.slotAt 0)) =
      some (bytesOf 32 0x220bf579ded555393f0159f66c99877822a3ecf610d1552154b41d44b94db3ae, Slot.erased) := by
  decide +kernel
/-- The source's vector 1 (section 1): 112 bytes of data. -/
theorem test_hmacBuf_vector1 :
    let half := bytesOf 56 0x6162636462636465636465666465666765666768666768696768696a68696a6b696a6b6c6a6b6c6d6b6c6d6e6c6d6e6f6d6e6f706e6f7071
    after (exec (.hmacBuf (half ++ half) (countFrom 1 32)) busy) (fun t => (t.rspOut, t.slots)) =
      some (bytesOf 32 0xca05e144ed05d1857840d1f318a4a8669e559fc8391f414485bfdf7bb408963a, busy.slots) := by
  decide +kernel
/-- The source's vector 3 (section 1). -/
theorem test_hmacBuf_vector3 :
    after (exec (.hmacBuf hiThere (rep 0x0b 32)) busy) State.rspOut =
      some (bytesOf 32 0xc0ba18c68b90c88bc07de794bfc7d2c8d19ec31ed8773bc2b390c9604e0be11e) := by decide +kernel

/-- The counter wrap of section 6: N and BUF after two bytes. -/
theorem test_counter_wrap :
    let c := absorb { initContext with n := 0xfffffffffffffff8 } [0x61, 0x62]
    c.n = 8 ∧ c.buf = blockOf [0x62] := by decide +kernel

/-! The host's two functions, and the text form (section 6 of 30_encoding.md). -/

theorem test_tableWord :
    decodeTableWord 32 0x02030000 = some (.update 3 []) ∧ decodeTableWord 32 0x15000000 = some (.hmacBuf [] []) ∧
    decodeTableWord 32 0x15010000 = none := by decide
theorem test_withFetchWord :
    after (step (State.reset.withFetchWord 32 0x01010000)) (fun t => (t.slots, t.cmdIn)) =
      some ([Slot.erased, initContext], []) := by decide +kernel
theorem test_text :
    instrText (.init 0) = "INIT 0" ∧ instrText (.update 3 []) = "UPDATE 3, \"\"" ∧
    instrText (.hmacInit 1 jefe) = "HMAC_INIT 1, x\"4a656665\"" ∧
    instrText (.hmacBuf [0x48, 0x69] [0x6b]) = "HMAC_BUF x\"4869\", x\"6b\"" := by decide +kernel

/-! ## Witnesses: for every obligation that has hypotheses, states and operands that meet all of them together. -/

theorem witness_DecodeEncodeRoundTrip :
    WellFormed (.init 255) ∧ WellFormed (.update 0 []) ∧ WellFormed (.buf [0x61]) ∧ WellFormed (.hmac 1 [0x61] jefe) := by
  simp [WellFormed, lengthFits, jefe]
theorem witness_EncodeDecodeRoundTrip :
    decode (bytesOf 5 0x03ff000001) = .packet (.final 255) [1] ∧
    decode (bytesOf 23 0x1500000000000000000000030000000000000000616263) = .packet (.hmacBuf abc []) [] := by decide
/-- An admitted packet and one whose header faults. -/
theorem witness_StepRunsDecodedInstruction :
    (State.reset.halted = false ∧ decode (sent State.reset (bytesOf 4 0x01010000)).cmdIn = .packet (.init 1) []) ∧
    (sent busy (bytesOf 4 0x13000000)).halted = false ∧
      decode (sent busy (bytesOf 4 0x13000000)).cmdIn = .packet (.hmacFinal 0) [] := by decide +kernel
theorem witness_HaltedEngineHasNoStep : halted.halted = true := by decide
/-- Three bytes of a header; a header and a partial LEN; a packet short by its last byte. -/
theorem witness_IncompletePacketWaits :
    (busy.halted = false ∧ (sent busy (bytesOf 3 0x020000)).cmdIn.length < 4) ∧
    (headerFault .update 0 (sent busy (bytesOf 10 0x02000000000000000000)) = none ∧ WellFormed (.update 0 abc) ∧
      encode (.update 0 abc) = bytesOf 10 0x02000000000000000000 ++ bytesOf 5 0x0003616263) ∧
    headerFault .hmacFinal 1 (sent busy (bytesOf 3 0x130100)) = none ∧
      encode (.hmacFinal 1) = bytesOf 3 0x130100 ++ [0] := by
  refine ⟨by decide +kernel, ⟨by decide +kernel, by simp [WellFormed, lengthFits, abc], by decide +kernel⟩, by decide +kernel⟩
/-- The opcodes next to the legal ones, each reserved byte, BUF and HMAC_BUF with a SLOT byte, on bytes that meet the clause. -/
theorem witness_IllegalCommandIsTaken :
    State.reset.halted = false ∧
    (∀ h0 ∈ ([0x00, 0x06, 0x10, 0x16, 0xff] : List Byte),
      h0 ∉ ([0x01, 0x02, 0x03, 0x04, 0x05, 0x11, 0x12, 0x13, 0x14, 0x15] : List Byte)) ∧
    (sent State.reset (bytesOf 4 0x01000100)).cmdIn = [0x01, 0x00, 0x01, 0x00] ∧
    (sent State.reset (bytesOf 4 0x01000001)).cmdIn = [0x01, 0x00, 0x00, 0x01] ∧
    (sent State.reset (bytesOf 4 0x15010000)).cmdIn = [0x15, 0x01, 0x00, 0x00] := by decide
/-- The first slot number out of range and the last one there is. -/
theorem witness_BadSlotIsTaken :
    busy.halted = false ∧ (sent busy (bytesOf 4 0x01020000)).cmdIn = [0x01, 0x02, 0x00, 0x00] ∧
    busy.nctx ≤ (2 : Byte).toNat ∧ busy.nctx ≤ (255 : Byte).toNat := by decide
/-- UPDATE and FINAL on an IDLE and an HMAC slot, HMAC_UPDATE and HMAC_FINAL on a HASH slot, the last slot among them. -/
theorem witness_LifecycleFaultIsTaken :
    busy.halted = false ∧ (0 : Byte).toNat < busy.nctx ∧ (1 : Byte).toNat < busy.nctx ∧
    (State.reset.slotAt 1).phase ≠ .hash ∧ (busy.slotAt 1).phase ≠ .hash ∧ (busy.slotAt 0).phase ≠ .hmac := by decide
/-- A step that runs a packet and a step that takes a fault. -/
theorem witness_StepConsumesOnePacketOrFaults :
    (∃ t, step (sent busy (bytesOf 4 0x01010000)) = .next t) ∧ ∃ t, step (sent busy (bytesOf 4 0x01020000)) = .next t :=
  ⟨next_of_after (by decide +kernel), next_of_after (by decide +kernel)⟩
theorem witness_WholePacketAlwaysSteps :
    busy.halted = false ∧ WellFormed (.final 0) ∧ (sent busy (bytesOf 5 0x0300000001)).cmdIn = encode (.final 0) ++ [1] :=
  ⟨by decide, trivial, by decide⟩
/-- An empty CMD_IN, a halted engine and a stuck one. -/
theorem witness_NoStepMeansEndedOrStuck :
    (∀ t, step State.reset ≠ .next t) ∧ (∀ t, step halted ≠ .next t) ∧
    (∀ t, step (sent busy (bytesOf 4 0x02000000)) ≠ .next t) := by
  have h1 : step State.reset = .fault .waiting := rfl
  have h2 : step halted = .fault .halted := rfl
  have h3 : step (sent busy (bytesOf 4 0x02000000)) = .fault .waiting := rfl
  rw [h1, h2, h3]
  exact ⟨nofun, nofun, nofun⟩
/-- Each of the three ends: nothing sent; halted; one byte, and a packet without its last byte. -/
theorem witness_NoStepMeansEndedOrStuck_ends :
    EndedWell State.reset ∧ EndedBadly halted ∧ Stuck (sent busy [0xff]) ∧ Stuck (sent busy (bytesOf 3 0x030000)) ∧
    Stuck (sent busy (bytesOf 14 0x0200000000000000000000036162)) :=
  ⟨⟨rfl, by decide⟩, by unfold EndedBadly; decide, ⟨by decide, by decide, .inl (by decide)⟩,
    ⟨by decide, by decide, .inl (by decide)⟩,
    ⟨by decide, by decide, .inr ⟨.update 0 abc, [0x63], by simp [WellFormed, lengthFits, abc], by decide, by decide, by decide⟩⟩⟩
theorem witness_OnlyResetLeavesTheHalt :
    halted.halted = true ∧ Moves halted (hostAct halted .reset) ∧ Moves halted (hostAct halted (.send abc)) :=
  ⟨by decide, .host _ _, .host _ _⟩

/-- The last slot that exists and the first that does not: InitResult, HashResult, HmacInitResult, HmacResult,
ImageAfterInitIsFixed. -/
theorem witness_InitResult : (1 : Byte).toNat < busy.nctx ∧ busy.nctx ≤ (2 : Byte).toNat := by decide
theorem witness_HashResult : (1 : Byte).toNat < busy.nctx ∧ busy.nctx ≤ (2 : Byte).toNat := by decide
theorem witness_HmacInitResult : (1 : Byte).toNat < busy.nctx ∧ busy.nctx ≤ (2 : Byte).toNat := by decide
theorem witness_HmacResult : (1 : Byte).toNat < busy.nctx ∧ busy.nctx ≤ (2 : Byte).toNat := by decide
theorem witness_ImageAfterInitIsFixed : (0 : Byte).toNat < busy.nctx ∧ (1 : Byte).toNat < busy.nctx := by decide
/-- UpdateResult: a slot in phase HASH, one that is not, one that does not exist. -/
theorem witness_UpdateResult :
    (0 : Byte).toNat < busy.nctx ∧ (busy.slotAt 0).phase = .hash ∧ (1 : Byte).toNat < busy.nctx ∧
    (busy.slotAt 1).phase ≠ .hash ∧ busy.nctx ≤ (2 : Byte).toNat := by decide
theorem witness_FinalResult :
    (0 : Byte).toNat < busy.nctx ∧ (busy.slotAt 0).phase = .hash ∧ (1 : Byte).toNat < busy.nctx ∧
    (busy.slotAt 1).phase ≠ .hash ∧ busy.nctx ≤ (2 : Byte).toNat := by decide
theorem witness_HmacUpdateResult :
    (1 : Byte).toNat < busy.nctx ∧ (busy.slotAt 1).phase = .hmac ∧ (0 : Byte).toNat < busy.nctx ∧
    (busy.slotAt 0).phase ≠ .hmac ∧ busy.nctx ≤ (2 : Byte).toNat := by decide
theorem witness_HmacFinalResult :
    (1 : Byte).toNat < busy.nctx ∧ (busy.slotAt 1).phase = .hmac ∧ (0 : Byte).toNat < busy.nctx ∧
    (busy.slotAt 0).phase ≠ .hmac ∧ busy.nctx ≤ (2 : Byte).toNat := by decide

/-- 63 bytes pending and one more: exactly one block. -/
theorem witness_AbsorbFollowsTheRule :
    ∃ (c : Slot) (x p : List Byte) (r k : Nat),
      r = (c.n.toNat / 8) % 64 ∧ p = c.buf.toList.take r ++ x ∧ k = p.length / 64 ∧ r = 63 ∧ k = 1 :=
  ⟨{ initContext with n := 504 }, [0x61], _, _, _, rfl, rfl, rfl, by decide, by decide +kernel⟩
theorem witness_ZeroLengthUpdateIsNoOp :
    (initContext.buf.toList.drop (pendingCount initContext) = rep 0 (64 - pendingCount initContext)) ∧
    (0 : Byte).toNat < busy.nctx ∧ (busy.slotAt 0).phase = .hash ∧ SlotInv (busy.slotAt 0) ∧
    (1 : Byte).toNat < busy.nctx ∧ (busy.slotAt 1).phase ≠ .hash :=
  ⟨by decide, by decide, by decide, ⟨nofun, fun _ => rfl, by decide, by decide⟩, by decide, by decide⟩
theorem witness_ChunkingInvariance : (0 : Byte).toNat < busy.nctx ∧ (busy.slotAt 0).phase = .hash := by decide
theorem witness_CanonicalStateOfMessage : ([abc, [], abcd16] : List (List Byte)).flatten.length < 2 ^ 61 := by decide
/-- A slot in phase HASH and one in phase HMAC, both existing, with nothing pending. -/
theorem witness_CompressionsPerCommand :
    (initContext = busy.slotAt (0 : Byte).toNat ∧ 0 = (initContext.n.toNat / 8) % 64 ∧ (0 : Byte).toNat < busy.nctx ∧
      initContext.phase = .hash) ∧
    jefeSlot = busy.slotAt (1 : Byte).toNat ∧ 0 = (jefeSlot.n.toNat / 8) % 64 ∧ (1 : Byte).toNat < busy.nctx ∧
      jefeSlot.phase = .hmac :=
  ⟨⟨rfl, by decide, by decide, rfl⟩, rfl, by decide, by decide, rfl⟩
/-- Both cases at their boundaries: 55 and 56 bytes pending, and 0 and 63. -/
theorem witness_PaddingBlockLayout :
    (∀ r ∈ [0, 55], r = (({ initContext with n := BitVec.ofNat 64 (8 * r) } : Slot).n.toNat / 8) % 64 ∧ r ≤ 55) ∧
    ∀ r ∈ [56, 63], r = (({ initContext with n := BitVec.ofNat 64 (8 * r) } : Slot).n.toNat / 8) % 64 ∧ 56 ≤ r := by decide
theorem witness_Sm3IsFoldOverPaddedMessage : abcd16.length < 2 ^ 61 := by decide
theorem witness_LengthFieldReadsBack : abcd16.length < 2 ^ 64 := by decide
theorem witness_DigestWordOrder : (7 : Nat) < 8 := by decide
/-- Keys of 64 and 65 bytes, and a key filled up to 64 bytes exactly. -/
theorem witness_KeyNormalizationBoundary :
    (countFrom 0 64).length ≤ 64 ∧ 64 < (countFrom 0 65).length ∧ jefe.length + 60 ≤ 64 := by decide
theorem witness_ScheduleRecurrence :
    ∃ w : Nat → Word, (∀ i, w i = (expand abcBlock).w.toList.getD i 0) ∧ (15 : Nat) < 16 ∧ (16 : Nat) ≤ 16 ∧ (67 : Nat) < 68 ∧
      (63 : Nat) < 64 := ⟨_, fun _ => rfl, by decide⟩
theorem witness_RoundConstantSequences :
    (15 : Nat) ≤ 15 ∧ (16 ≤ 16 ∧ 16 ≤ 63) ∧ 14 ≤ 14 ∧ (16 ≤ 62 ∧ 62 ≤ 62) ∧ (16 ≤ 31 ∧ 31 ≤ 31) := by decide
theorem witness_RoundWritesAllRegisters : (15 : Nat) < 64 ∧ 16 < 64 ∧ 63 < 64 := by decide
theorem witness_CompressionIsSixtyFourRounds : (0 : Nat) < 64 ∧ 63 < 64 := by decide
/-- The padded block of "abc" against itself with every byte flipped. -/
theorem witness_ExpandIsLinear :
    (blockOf (rep 0xff 64)).toList = List.zipWith (· ^^^ ·) abcBlock.toList (xorByte abcBlock 0xff).toList := by decide +kernel
theorem witness_StatusPortReadsAndWrites : (2 : Nat) ≤ 2 := by decide
theorem witness_CapIsConstant :
    Config.LegalNctx (State.resetOf 1).nctx ∧ Config.LegalNctx (State.resetOf 256).nctx ∧
      Moves busy (hostAct busy (.writeReg 1 7)) := by
  rw [nctx_resetOf, nctx_resetOf]
  exact ⟨⟨by decide, by decide⟩, ⟨by decide, by decide⟩, .host _ _⟩
theorem witness_SlotImageLayout : busy.slots[1]? = some jefeSlot := rfl
theorem witness_ResetMeetsInvariant : Config.LegalNctx 1 ∧ Config.LegalNctx 256 := by
  unfold Config.LegalNctx
  decide
/-- A state with an open hash and an HMAC context meets the invariant, and steps, by a command and into a fault. -/
theorem witness_StepKeepsInvariant :
    (sent busy (bytesOf 4 0x03000000)).Inv ∧ (∃ t, step (sent busy (bytesOf 4 0x03000000)) = .next t) ∧
    ∃ t, step (sent busy (bytesOf 4 0x03010000)) = .next t := by
  refine ⟨⟨⟨by decide, by decide⟩, ?_, rfl, .inl rfl, rfl⟩, next_of_after (by decide +kernel), next_of_after (by decide +kernel)⟩
  intro c hc
  have h : c = initContext ∨ c = jefeSlot := by simpa [sent, busy] using hc
  rcases h with rfl | rfl
  · exact ⟨nofun, fun _ => rfl, by decide, by decide⟩
  · exact ⟨nofun, nofun, by decide, by decide⟩
theorem witness_ReachableStatesMeetInvariant :
    Config.LegalNctx 2 ∧ Reachable 2 (hostAct (State.resetOf 2) (.send abc)) :=
  ⟨⟨by decide, by decide⟩, .move _ _ .reset (.host _ _)⟩
theorem witness_ScratchErasedAfterEveryStep : ∃ t, step (sent busy (bytesOf 4 0x01000000)) = .next t :=
  next_of_after (by decide +kernel)
theorem witness_ImageIsZeroAfterFinalizing :
    headerFault .final 0 busy = none ∧ headerFault .hash 1 busy = none ∧ headerFault .hmacFinal 1 busy = none ∧
    headerFault .hmac 0 busy = none := by decide
theorem witness_HmacCounterStaysAbove512 :
    (1 : Byte).toNat < busy.nctx ∧ (busy.slotAt 1).phase = .hmac ∧ 512 ≤ (busy.slotAt 1).n.toNat ∧
    (busy.slotAt 1).n.toNat + 8 * abc.length < 2 ^ 64 := by decide
/-- A command that is admitted and one that faults; slot 0 is no part of either. -/
theorem witness_CommandFrame :
    (∃ t, exec (.hmacUpdate 1 abc) busy = .next t) ∧ headerFault .hmacUpdate 1 busy = none ∧
    (∃ t, exec (.update 1 abc) busy = .next t) ∧ headerFault .update 1 busy ≠ none ∧ (0 : Nat) ≠ (1 : Byte).toNat :=
  ⟨next_of_after (by decide +kernel), by decide, next_of_after (by decide +kernel), by decide, by decide⟩
theorem witness_LifecycleTableHolds :
    opcodeNamesSlot (instrOpcode (.hmacFinal 1)) = true ∧ (instrSlotByte (.hmacFinal 1)).toNat < busy.nctx ∧
    opcodeNamesSlot (instrOpcode (.buf abc)) = false ∧ Slot.erased ∈ (hostAct busy .reset).slots := by decide +kernel
/-- Two slots, and BUF beside a command on a slot. -/
theorem witness_CommandsOnDifferentSlotsCommute :
    (busy.halted = false ∧ lengthFits abc) ∧
    (instrSlotByte (.final 0) ≠ instrSlotByte (.hmacFinal 1) ∧ headerFault .final 0 busy = none ∧
      headerFault .hmacFinal 1 busy = none) ∧
    opcodeNamesSlot (instrOpcode (.buf abc)) = false ∧ headerFault .buf 0 busy = none := by decide
/-- Two states that differ in the other slot, in SCR, in CMD_IN and in RSP_OUT, and agree on slot 1. -/
theorem witness_ResponseDependsOnlyOnNamedSlot :
    let s : State := { busy with slots := [Slot.erased, jefeSlot], cmdIn := abc, rspOut := rep 7 32 }
    busy.nctx = s.nctx ∧ busy.slotAt 1 = s.slotAt 1 ∧ busy ≠ s := by decide +kernel
theorem witness_HashEqualsStreaming :
    busy.halted = false ∧ (1 : Byte).toNat < busy.nctx ∧ ([abc, [], abcd16] : List (List Byte)).flatten.length < 2 ^ 64 := by
  decide
theorem witness_HmacEqualsStreaming :
    busy.halted = false ∧ (0 : Byte).toNat < busy.nctx ∧ ([abc, abcd16] : List (List Byte)).flatten.length < 2 ^ 64 ∧
    (countFrom 0 65).length < 2 ^ 64 := by decide

end Sys2Proof.Tests
end

section
/-! SUPPORT. The proofs of the statements on state, ports and invariants (10_state.md): first what a command and a step do,
each in one lemma, then the invariant, then the obligations. -/

namespace Sys2Proof.Proofs

open Sys2Proof.Machine Sys2Proof.Laws

/-! ## What a command does, in one equation -/

/-- The record HMAC_INIT leaves in its slot for the key `y` (R178, R185). -/
def hmacContext (y : List Byte) : Slot := ⟨cf iv (innerPad y), 512, blockOf [], outerPad y, .hmac⟩

/-- The MAC HMAC_FINAL stages for a slot that holds `c` (R180): the outer hash over the inner digest. -/
def outerDigest (c : Slot) : Digest :=
  finalDigest (absorb (absorb initContext c.okey.toList) (stateBytes (finalState c)))

/-- The record a command leaves in its slot, which held `c`; BUF and HMAC_BUF have no slot. -/
def commandSlot : Instr → Slot → Slot
  | .init _, _ => initContext
  | .update _ x, c => absorb c x
  | .final _, _ => Slot.erased
  | .hash _ _, _ => Slot.erased
  | .buf _, c => c
  | .hmacInit _ y, _ => hmacContext y
  | .hmacUpdate _ x, c => absorb c x
  | .hmacFinal _, _ => Slot.erased
  | .hmac _ _ _, _ => Slot.erased
  | .hmacBuf _ _, c => c

/-- The bytes a command emits, its slot holding `c` before it. -/
def commandResponse : Instr → Slot → List Byte
  | .init _, _ => []
  | .update _ _, _ => []
  | .final _, c => stateBytes (finalState c)
  | .hash _ x, _ => (sm3 x).toList
  | .buf x, _ => (sm3 x).toList
  | .hmacInit _ _, _ => []
  | .hmacUpdate _ _, _ => []
  | .hmacFinal _, c => (outerDigest c).toList
  | .hmac _ x y, _ => (outerDigest (absorb (hmacContext y) x)).toList
  | .hmacBuf x y, _ => (outerDigest (absorb (hmacContext y) x)).toList

/-- The slots after an admitted command: the named one rewritten, or none. -/
def commandSlots (i : Instr) (s : State) : List Slot :=
  if opcodeNamesSlot (instrOpcode i) then
    s.slots.set (instrSlotByte i).toNat (commandSlot i (s.slotAt (instrSlotByte i).toNat))
  else s.slots

/-- The inner context of HMAC_BUF finalizes as the one HMAC_INIT and HMAC_UPDATE build: the two differ in the outer pad key
and the phase alone. -/
theorem finalDigest_innerPad (x y : List Byte) :
    finalDigest (absorb (absorb initContext (innerPad y).toList) x) = finalDigest (absorb (hmacContext y) x) := by
  rw [absorb_initContext_block]
  exact finalDigest_congr rfl rfl rfl

/-- The step of HMAC (R181) on a slot that exists. -/
theorem hmacBody_eq {i : Nat} (x y : List Byte) {s : State} (hi : i < s.slots.length) :
    s.hmacBody i x y =
      { s with
        slots := s.slots.set i Slot.erased
        scr := Scr.erased
        rspOut := s.rspOut ++ (outerDigest (absorb (hmacContext y) x)).toList } := by
  rw [State.hmacBody, hmacInitBody_eq y hi, hmacUpdateBody_eq, hmacFinalBody_eq (by simpa using hi)]
  simp only [State.slotAt, slotAt_set_self _ hi, List.set_set, outerDigest, hmacContext]

/-- The body of every command, whose slot exists if it names one: slots, SCR and RSP_OUT are all it writes. -/
theorem commandBody_eq {i : Instr} {s : State}
    (hi : opcodeNamesSlot (instrOpcode i) = true → (instrSlotByte i).toNat < s.slots.length) :
    commandBody i s =
      { s with
        slots := commandSlots i s
        scr := Scr.erased
        rspOut := s.rspOut ++ commandResponse i (s.slotAt (instrSlotByte i).toNat) } := by
  cases i with
  | init slot =>
    rw [commandResponse, List.append_nil]
    exact initBody_eq _ s
  | update slot x =>
    rw [commandResponse, List.append_nil]
    exact updateBody_eq _ x s
  | final slot => exact finalBody_eq _ s
  | hash slot x => exact hashBody_eq x (hi rfl)
  | buf x => exact bufBody_eq x s
  | hmacInit slot y =>
    rw [commandResponse, List.append_nil]
    exact hmacInitBody_eq y (hi rfl)
  | hmacUpdate slot x =>
    rw [commandResponse, List.append_nil]
    exact hmacUpdateBody_eq _ x s
  | hmacFinal slot => exact hmacFinalBody_eq (hi rfl)
  | hmac slot x y => exact hmacBody_eq x y (hi rfl)
  | hmacBuf x y =>
    rw [commandResponse, outerDigest, ← finalDigest_toList, ← finalDigest_innerPad]
    exact hmacBufBody_eq x y s

/-- The state after the command `i`, admitted in `s`, has run (R80 step 6). -/
def commandNext (i : Instr) (s : State) : State where
  slots := commandSlots i s
  scr := Scr.erased
  status := s.status
  cmdIn := s.cmdIn.drop (packetLength i)
  rspOut := s.rspOut ++ commandResponse i (s.slotAt (instrSlotByte i).toNat)

/-- The meaning of every admitted command, as one equation. -/
theorem exec_eq_commandNext {i : Instr} {s : State} (h : headerFault (instrOpcode i) (instrSlotByte i) s = none) :
    exec i s = .next (commandNext i s) := by
  have hi : opcodeNamesSlot (instrOpcode i) = true →
      (instrSlotByte i).toNat < (s.take (packetLength i)).slots.length :=
    fun hop => (of_headerFault_none h hop).1
  rw [exec_admitted h, commandBody_eq hi]
  rfl

/-- All that a command can do: run, if its header is admitted, or take its fault. -/
theorem exec_cases {i : Instr} {s t : State} (h : exec i s = .next t) :
    (headerFault (instrOpcode i) (instrSlotByte i) s = none ∧ t = commandNext i s) ∨
      ∃ c, headerFault (instrOpcode i) (instrSlotByte i) s = some c ∧
        t = s.raiseFault c (opcodeByte (instrOpcode i)) (instrSlotByte i) := by
  cases hf : headerFault (instrOpcode i) (instrSlotByte i) s with
  | none =>
    rw [exec_eq_commandNext hf] at h
    cases h
    exact .inl ⟨rfl, rfl⟩
  | some c =>
    rw [exec_faulted hf] at h
    cases h
    exact .inr ⟨c, rfl, rfl⟩

theorem length_commandSlots (i : Instr) (s : State) : (commandSlots i s).length = s.slots.length := by
  rw [commandSlots]
  split
  · exact List.length_set
  · rfl

/-- No slot but the named one changes (R40). -/
theorem commandSlots_getElem?_ne {i : Instr} {s : State} {k : Nat}
    (hk : opcodeNamesSlot (instrOpcode i) = true → k ≠ (instrSlotByte i).toNat) :
    (commandSlots i s)[k]? = s.slots[k]? := by
  rw [commandSlots]
  split
  · rename_i hop
    exact List.getElem?_set_ne (hk hop).symm
  · rfl

/-- The named slot, which exists, holds what the command leaves there. -/
theorem commandNext_slotAt {i : Instr} {s : State} (hop : opcodeNamesSlot (instrOpcode i) = true)
    (hi : (instrSlotByte i).toNat < s.nctx) :
    (commandNext i s).slotAt (instrSlotByte i).toNat = commandSlot i (s.slotAt (instrSlotByte i).toNat) := by
  rw [State.slotAt, commandNext, commandSlots, if_pos hop]
  exact slotAt_set_self _ hi

/-- Six commands emit a digest, the others nothing (R37). -/
theorem length_commandResponse (i : Instr) (c : Slot) :
    (commandResponse i c).length =
      if instrOpcode i ∈ ([.final, .hash, .buf, .hmacFinal, .hmac, .hmacBuf] : List Opcode) then 32 else 0 := by
  cases i <;> simp [commandResponse, instrOpcode, length_stateBytes]

/-! ## What a step does -/

/-- Whatever decodes as a packet is the packet of a well-formed command, followed by what is handed back (R81). -/
theorem eq_encode_of_decode {bytes rest : List Byte} {i : Instr} (h : decode bytes = .packet i rest) :
    WellFormed i ∧ bytes = encode i ++ rest := by
  rw [decode] at h
  split at h
  · cases h
  · cases h
  · rename_i op h1 body hd
    obtain ⟨rfl, h0⟩ := decodeHeader_eq_command hd
    cases op with
    | init => cases h; exact ⟨trivial, rfl⟩
    | final => cases h; exact ⟨trivial, rfl⟩
    | hmacFinal => cases h; exact ⟨trivial, rfl⟩
    | update => obtain ⟨x, hx, rfl, rfl⟩ := decodeL1_eq_packet h; exact ⟨hx, rfl⟩
    | hash => obtain ⟨x, hx, rfl, rfl⟩ := decodeL1_eq_packet h; exact ⟨hx, rfl⟩
    | hmacInit => obtain ⟨y, hy, rfl, rfl⟩ := decodeL1_eq_packet h; exact ⟨hy, rfl⟩
    | hmacUpdate => obtain ⟨x, hx, rfl, rfl⟩ := decodeL1_eq_packet h; exact ⟨hx, rfl⟩
    | buf =>
      obtain rfl := h0 rfl
      obtain ⟨x, hx, rfl, rfl⟩ := decodeL1_eq_packet h
      exact ⟨hx, rfl⟩
    | hmac => obtain ⟨x, y, hx, hy, rfl, rfl⟩ := decodeL2_eq_packet h; exact ⟨⟨hx, hy⟩, rfl⟩
    | hmacBuf =>
      obtain rfl := h0 rfl
      obtain ⟨x, y, hx, hy, rfl, rfl⟩ := decodeL2_eq_packet h
      exact ⟨⟨hx, hy⟩, rfl⟩

theorem length_encode (i : Instr) : (encode i).length = packetLength i :=
  (PacketShape.of_format i).2.1

/-- All that a step can do, in full: run the whole admitted packet at the front of CMD_IN, or take a fault that names its
first two bytes; and it does so only on an engine that is not halted. -/
theorem step_runs_or_raises {s t : State} (h : step s = .next t) :
    s.halted = false ∧
      ((∃ i rest, WellFormed i ∧ s.cmdIn = encode i ++ rest ∧
          headerFault (instrOpcode i) (instrSlotByte i) s = none ∧ t = commandNext i s) ∨
        ∃ c h0 h1 rest, s.cmdIn = h0 :: h1 :: rest ∧ t = s.raiseFault c h0 h1) := by
  obtain ⟨c, h0, h1, hf, rfl⟩ | ⟨i, hf, he⟩ := step_cases h
  · obtain ⟨hh, rest, hb⟩ := of_fetch_raise hf
    exact ⟨hh, .inr ⟨c, h0, h1, rest, hb, rfl⟩⟩
  · obtain ⟨hh, hadm, rest, hd⟩ := of_fetch_run hf
    obtain ⟨hw, hb⟩ := eq_encode_of_decode hd
    rw [exec_eq_commandNext hadm] at he
    cases he
    exact ⟨hh, .inl ⟨i, rest, hw, hb, hadm, rfl⟩⟩

/-- No step makes or removes a slot. -/
theorem step_keeps_nctx {s t : State} (h : step s = .next t) : t.nctx = s.nctx := by
  obtain ⟨-, ⟨i, _, _, _, _, rfl⟩ | ⟨c, h0, h1, _, _, rfl⟩⟩ := step_runs_or_raises h
  · exact length_commandSlots i s
  · rfl

theorem resetOf_nctx (n : Nat) : (State.resetOf n).nctx = n := List.length_replicate

theorem hostAct_keeps_nctx (s : State) (a : HostAction) : (hostAct s a).nctx = s.nctx := by
  cases a with
  | send bytes => rfl
  | writeReg n v => rfl
  | reset => exact resetOf_nctx s.nctx

/-- No move of engine or host makes or removes a slot (R9, R21). -/
theorem moves_keep_nctx {s t : State} (h : Moves s t) : t.nctx = s.nctx := by
  cases h with
  | engine _ h => exact step_keeps_nctx h
  | host a => exact hostAct_keeps_nctx s a

/-! ## The invariant of a command boundary -/

theorem slotInv_erased : SlotInv Slot.erased := ⟨fun _ => rfl, nofun, rfl, by decide⟩

theorem slotInv_initContext : SlotInv initContext := ⟨nofun, fun _ => rfl, rfl, by decide⟩

theorem slotInv_hmacContext (y : List Byte) : SlotInv (hmacContext y) := by
  have hn : (hmacContext y).n.toNat = 512 := rfl
  have hr : pendingCount (hmacContext y) = 0 := by rw [pendingCount, hn]
  refine ⟨nofun, nofun, by rw [hn], ?_⟩
  rw [hr]
  rfl

/-- Absorbing keeps the invariant of a slot in use: the counter stays a number of whole bytes, for 8 divides 2^64, and BUF
is zero behind the pending bytes (R24, R136, R138). -/
theorem slotInv_absorb {c : Slot} (hc : SlotInv c) (hp : c.phase ≠ .idle) (x : List Byte) : SlotInv (absorb c x) := by
  obtain ⟨-, hokey, hn, -⟩ := hc
  refine ⟨fun h => absurd h hp, hokey, ?_, ?_⟩
  · rw [absorb_n_toNat]
    omega
  · rw [absorb_buf_toList]
    exact List.drop_left' (length_leftover_absorb c x)

/-- A command leaves the invariant in its slot, if the slot's phase allows the command. -/
theorem slotInv_commandSlot {i : Instr} {c : Slot} (hc : SlotInv c)
    (hp : phaseAllows (instrOpcode i) c.phase = true) : SlotInv (commandSlot i c) := by
  cases i with
  | init slot => exact slotInv_initContext
  | hmacInit slot y => exact slotInv_hmacContext y
  | update slot x =>
    have hphase : c.phase = .hash := by simpa [phaseAllows, requiredPhase, instrOpcode] using hp
    exact slotInv_absorb hc (by simp [hphase]) x
  | hmacUpdate slot x =>
    have hphase : c.phase = .hmac := by simpa [phaseAllows, requiredPhase, instrOpcode] using hp
    exact slotInv_absorb hc (by simp [hphase]) x
  | final slot => exact slotInv_erased
  | hash slot x => exact slotInv_erased
  | hmacFinal slot => exact slotInv_erased
  | hmac slot x y => exact slotInv_erased
  | buf x => exact hc
  | hmacBuf x y => exact hc

theorem slotInv_commandSlots {i : Instr} {s : State} (hs : ∀ c ∈ s.slots, SlotInv c)
    (h : headerFault (instrOpcode i) (instrSlotByte i) s = none) : ∀ c ∈ commandSlots i s, SlotInv c := by
  intro c hc
  rw [commandSlots] at hc
  split at hc
  · rename_i hop
    obtain ⟨hi, hp⟩ := of_headerFault_none h hop
    rcases List.mem_or_eq_of_mem_set hc with hmem | rfl
    · exact hs c hmem
    · have hmem : s.slotAt (instrSlotByte i).toNat ∈ s.slots := by
        rw [slotAt_eq_getElem hi]
        exact List.getElem_mem hi
      exact slotInv_commandSlot (hs _ hmem) hp
  · exact hs c hc

/-- STATUS.FAULT is set in every word a fault writes (R222, R224). -/
theorem statusFault_statusWord (c : Cause) (h0 h1 : Byte) : statusFault (statusWord c h0 h1) = true := by
  simp [statusFault, statusWord]

/-- On an engine that is not halted the invariant of STATUS says that no fault is recorded. -/
theorem status_eq_zero_of_not_halted {s : State} (hs : StatusInv s) (hh : s.halted = false) : s.status = 0 := by
  obtain h | ⟨c, h0, h1, -, h, -⟩ := hs
  · exact h
  · rw [State.halted, h, statusFault_statusWord] at hh
    cases hh

theorem length_commandResponse_mod (i : Instr) (c : Slot) : (commandResponse i c).length % 32 = 0 := by
  rw [length_commandResponse]
  split <;> rfl

/-- An admitted command of an engine that is not halted keeps the invariant. -/
theorem inv_commandNext {i : Instr} {s : State} (hs : s.Inv) (hh : s.halted = false)
    (h : headerFault (instrOpcode i) (instrSlotByte i) s = none) : (commandNext i s).Inv := by
  obtain ⟨hn, hslots, -, hstatus, hrsp⟩ := hs
  have hzero : s.status = 0 := status_eq_zero_of_not_halted hstatus hh
  refine ⟨?_, slotInv_commandSlots hslots h, rfl, .inl hzero, ?_⟩
  · rw [State.nctx, commandNext, length_commandSlots]
    exact hn
  · rw [commandNext, List.length_append, Nat.add_mod, hrsp, length_commandResponse_mod]

/-- A fault that names the first two bytes of CMD_IN keeps the invariant (R224). -/
theorem inv_raiseFault {s : State} (hs : s.Inv) (c : Cause) {h0 h1 : Byte} {rest : List Byte}
    (hb : s.cmdIn = h0 :: h1 :: rest) : (s.raiseFault c h0 h1).Inv := by
  obtain ⟨hn, hslots, -, -, hrsp⟩ := hs
  exact ⟨hn, hslots, rfl, .inr ⟨c, h0, h1, rest, rfl, hb⟩, hrsp⟩

theorem step_keeps_inv {s t : State} (hs : s.Inv) (h : step s = .next t) : t.Inv := by
  obtain ⟨hh, ⟨i, _, _, _, hadm, rfl⟩ | ⟨c, h0, h1, _, hb, rfl⟩⟩ := step_runs_or_raises h
  · exact inv_commandNext hs hh hadm
  · exact inv_raiseFault hs c hb

theorem inv_resetOf {n : Nat} (hn : Config.LegalNctx n) : (State.resetOf n).Inv := by
  refine ⟨by rw [resetOf_nctx]; exact hn, ?_, rfl, .inl rfl, rfl⟩
  intro c hc
  rw [List.eq_of_mem_replicate hc]
  exact slotInv_erased

/-- Bytes sent stand behind those a recorded fault names, a register write does nothing, and reset starts anew. -/
theorem hostAct_keeps_inv {s : State} (hs : s.Inv) (a : HostAction) : (hostAct s a).Inv := by
  cases a with
  | send bytes =>
    obtain ⟨hn, hslots, hscr, hstatus, hrsp⟩ := hs
    refine ⟨hn, hslots, hscr, ?_, hrsp⟩
    obtain h | ⟨c, h0, h1, rest, h, hb⟩ := hstatus
    · exact .inl h
    · refine .inr ⟨c, h0, h1, rest ++ bytes, h, ?_⟩
      rw [hostAct, hb]
      rfl
  | writeReg n v => exact hs
  | reset => exact inv_resetOf hs.1

theorem moves_keep_inv {s t : State} (hs : s.Inv) (h : Moves s t) : t.Inv := by
  cases h with
  | engine _ h => exact step_keeps_inv hs h
  | host a => exact hostAct_keeps_inv hs a

/-! ## The obligations on the invariant -/

/-- Settles O47: what runs on an engine that is not halted finds STATUS zero and rewrites at most the named slot; a fault
records the bytes it leaves in place. -/
theorem stepKeepsInvariant : Obligations.StepKeepsInvariant :=
  fun _ _ => step_keeps_inv

/-- Settles O48, by induction on the moves from reset. -/
theorem reachableStatesMeetInvariant : Obligations.ReachableStatesMeetInvariant := by
  intro n s hn hr
  induction hr with
  | reset => exact ⟨inv_resetOf hn, resetOf_nctx n⟩
  | move s t _ hmove ih =>
    obtain ⟨hinv, hslots⟩ := ih
    exact ⟨moves_keep_inv hinv hmove, (moves_keep_nctx hmove).trans hslots⟩

/-- Settles O46: after reset every slot is the erased one and STATUS is zero. -/
theorem resetMeetsInvariant : Obligations.ResetMeetsInvariant :=
  ⟨fun _ hn => inv_resetOf hn, inv_resetOf ⟨by decide, by decide⟩⟩

/-! ## The obligations on the frame of a step and of a command -/

/-- Settles O12: the two cases of a step, the consumption being the length of the very packet that was decoded. -/
theorem stepConsumesOnePacketOrFaults : Obligations.StepConsumesOnePacketOrFaults := by
  intro s t h
  obtain ⟨-, ⟨i, rest, hw, hb, hadm, rfl⟩ | ⟨c, h0, h1, rest, hb, rfl⟩⟩ := step_runs_or_raises h
  · refine .inl ⟨i, rest, hw, hb, hadm, exec_eq_commandNext hadm, ?_, rfl⟩
    rw [commandNext, hb]
    exact List.drop_left' (length_encode i)
  · exact .inr ⟨c, h0, h1, rest, hb, rfl⟩

/-- Settles O53, from the one equation of an admitted command and the fault entry. -/
theorem commandFrame : Obligations.CommandFrame := by
  intro i s t h
  obtain ⟨hadm, rfl⟩ | ⟨c, hf, rfl⟩ := exec_cases h
  · exact ⟨fun k hk => commandSlots_getElem?_ne hk, length_commandSlots i s, rfl,
      fun _ => ⟨rfl, rfl, _, rfl⟩, fun hne => absurd hadm hne⟩
  · refine ⟨fun _ _ => rfl, rfl, rfl, fun hnone => ?_, fun _ => ⟨rfl, rfl, rfl⟩⟩
    rw [hf] at hnone
    cases hnone

/-- Settles O54: a command that runs appends its response, a fault nothing. -/
theorem responseLengths : Obligations.ResponseLengths := by
  intro i s
  cases hf : headerFault (instrOpcode i) (instrSlotByte i) s with
  | none =>
    refine ⟨commandNext i s, _, exec_eq_commandNext hf, rfl, ?_⟩
    simp only [length_commandResponse, true_and]
  | some c => exact ⟨_, [], exec_faulted hf, (List.append_nil _).symm, rfl⟩

/-- Settles O52: HMAC_INIT counts 512 bits, and a counter that does not wrap only grows. -/
theorem hmacCounterStaysAbove512 : Obligations.HmacCounterStaysAbove512 := by
  intro slot x s hi
  constructor
  · have hadm : headerFault .hmacInit slot s = none := headerFault_none hi rfl
    have hslot : (commandNext (.hmacInit slot x) s).slotAt slot.toNat = hmacContext x :=
      commandNext_slotAt (i := .hmacInit slot x) rfl hi
    exact ⟨_, exec_eq_commandNext hadm, by rw [hslot]; rfl, by rw [hslot]; rfl⟩
  · intro hphase hn hwrap
    have hadm : headerFault .hmacUpdate slot s = none := headerFault_none hi (by rw [hphase]; rfl)
    have hslot : (commandNext (.hmacUpdate slot x) s).slotAt slot.toNat = absorb (s.slotAt slot.toNat) x :=
      commandNext_slotAt (i := .hmacUpdate slot x) rfl hi
    refine ⟨_, exec_eq_commandNext hadm, by rw [hslot]; exact hphase, ?_⟩
    rw [hslot, absorb_n_toNat, Nat.mod_eq_of_lt hwrap]
    omega

/-! ## The obligations on the ports, the slot image and STATUS -/

theorem cap_toNat {s : State} (hn : Config.LegalNctx s.nctx) : s.cap.toNat = s.nctx := by
  obtain ⟨-, hle⟩ := hn
  rw [State.cap]
  simp only [BitVec.truncate_eq_setWidth, BitVec.toNat_setWidth, BitVec.toNat_ofNat]
  omega

theorem cap_congr {s t : State} (h : t.nctx = s.nctx) : t.cap = s.cap := by
  rw [State.cap, State.cap, h]

/-- Settles O44: CAP is a function of the number of slots, which no move changes. -/
theorem capIsConstant : Obligations.CapIsConstant :=
  ⟨fun _ => cap_toNat, fun _ _ h => ⟨cap_congr (moves_keep_nctx h), moves_keep_nctx h⟩⟩

/-- Settles O42: reset keeps the number of slots alone, and CAP with it. -/
theorem resetLeavesEverythingZero : Obligations.ResetLeavesEverythingZero :=
  fun s => ⟨rfl, cap_congr (hostAct_keeps_nctx s .reset)⟩

/-- Settles O43, by the cases of a register read. -/
theorem statusPortReadsAndWrites : Obligations.StatusPortReadsAndWrites := by
  intro s n v
  refine ⟨rfl, rfl, fun hn => ?_, rfl⟩
  match n, hn with
  | n + 2, _ => rfl

/-- A field put at bit `m` of a word is read back from there. -/
theorem extract_field_same {n m : Nat} (x : BitVec n) (h : m + n ≤ 32) :
    (x.setWidth 32 <<< m).extractLsb' m n = x := by
  ext k hk
  have hlt : m + k < 32 := by omega
  simp [hlt, hk, BitVec.getLsbD_eq_getElem]

/-- A field put at bit `m` of a word is seen in no bits wholly below or wholly above it. -/
theorem extract_field_apart {n m : Nat} (x : BitVec n) (start len : Nat) (h : start + len ≤ m ∨ m + n ≤ start) :
    (x.setWidth 32 <<< m).extractLsb' start len = 0 := by
  ext k hk
  have hout : start + k < m ∨ n ≤ start + k - m := by omega
  rcases hout with hbelow | habove
  · simp [hbelow]
  · simp [BitVec.getLsbD_of_ge x _ habove]

/-- Settles O11: every field is read back where the fault wrote it, and the others lie outside its bits. -/
theorem statusWordFields : Obligations.StatusWordFields := by
  intro c h0 h1
  refine ⟨statusFault_statusWord c h0 h1, ?_, ?_, ?_, ?_⟩
  · have hcause : statusCause (statusWord c h0 h1) = causeCode c := by
      simp [statusCause, statusWord, BitVec.extractLsb'_or, extract_field_same, extract_field_apart]
    rw [hcause]
    cases c <;> rfl
  · simp [statusFslot, statusWord, BitVec.extractLsb'_or, extract_field_same, extract_field_apart]
  · simp [statusFop, statusWord, BitVec.extractLsb'_or, extract_field_same, extract_field_apart]
  · simp [statusReserved, statusWord, BitVec.extractLsb'_or, extract_field_apart]

/-- The slot image as its five fields, the first in front of the others. -/
theorem slotImage_eq (c : Slot) :
    slotImage c = stateBytes c.v ++ (toBe64 c.n ++ (c.buf.toList ++ (c.okey.toList ++ phaseByte c.phase :: rep 0 7))) := by
  simp only [slotImage, List.append_assoc, List.cons_append, List.nil_append]

theorem slotImage_drop_0x20 (c : Slot) :
    (slotImage c).drop 0x20 = toBe64 c.n ++ (c.buf.toList ++ (c.okey.toList ++ phaseByte c.phase :: rep 0 7)) := by
  rw [slotImage_eq]
  exact List.drop_left' (length_stateBytes c.v)

theorem slotImage_drop_0x28 (c : Slot) :
    (slotImage c).drop 0x28 = c.buf.toList ++ (c.okey.toList ++ phaseByte c.phase :: rep 0 7) := by
  rw [show 0x28 = 0x20 + 8 from rfl, ← List.drop_drop, slotImage_drop_0x20]
  exact List.drop_left' (length_toBe64 c.n)

theorem slotImage_drop_0x68 (c : Slot) :
    (slotImage c).drop 0x68 = c.okey.toList ++ phaseByte c.phase :: rep 0 7 := by
  rw [show 0x68 = 0x28 + 64 from rfl, ← List.drop_drop, slotImage_drop_0x28]
  exact List.drop_left' c.buf.length_toList

theorem slotImage_drop_0xA8 (c : Slot) : (slotImage c).drop 0xA8 = phaseByte c.phase :: rep 0 7 := by
  rw [show 0xA8 = 0x68 + 64 from rfl, ← List.drop_drop, slotImage_drop_0x68]
  exact List.drop_left' c.okey.length_toList

theorem length_slotImage (c : Slot) : (slotImage c).length = 176 := by
  simp [slotImage_eq, length_stateBytes, length_toBe64, length_rep]

/-- Settles O45: the image is five fields one behind the other, each as long as its offsets say. -/
theorem slotImageLayout : Obligations.SlotImageLayout := by
  intro s k c hk
  have himage : s.image k = some (slotImage c) := by rw [State.image, hk, Option.map_some]
  refine ⟨slotImage c, himage, length_slotImage c, ?_, ?_, ?_, ?_, ?_⟩
  · rw [slotImage_eq]
    exact List.take_left' (length_stateBytes c.v)
  · rw [slotImage_drop_0x20]
    exact List.take_left' (length_toBe64 c.n)
  · rw [slotImage_drop_0x28]
    exact List.take_left' c.buf.length_toList
  · rw [slotImage_drop_0x68]
    exact List.take_left' c.okey.length_toList
  · rw [slotImage_drop_0xA8]
    cases c.phase <;> rfl

end Sys2Proof.Proofs
end

section
/-! SUPPORT. The proofs of the statements on byte order and on adjacent commands (20_memory.md): first what a run does with
the packet at the front of CMD_IN, then what a command leaves of another one's slot, then the obligations. -/

namespace Sys2Proof.Proofs

open Sys2Proof.Machine Sys2Proof.Laws

/-! ## Running the packet at the front of CMD_IN -/

theorem instrSlotByte_of_noSlot {i : Instr} (h : opcodeNamesSlot (instrOpcode i) = false) : instrSlotByte i = 0 := by
  cases i with
  | buf x => rfl
  | hmacBuf x y => rfl
  | _ => cases h

/-- The decoder reads a well-formed command from its packet and hands back what stands behind (R81). -/
theorem decode_encode {i : Instr} (hw : WellFormed i) (rest : List Byte) : decode (encode i ++ rest) = .packet i rest := by
  have hheader (body : List Byte) : decode (opcodeByte (instrOpcode i) :: instrSlotByte i :: 0 :: 0 :: body) =
      decodeBody (instrOpcode i) (instrSlotByte i) body := by
    rw [decode, decodeHeader_command body instrSlotByte_of_noSlot]
  cases i with
  | init slot => exact hheader rest
  | final slot => exact hheader rest
  | hmacFinal slot => exact hheader rest
  | update slot x => exact (hheader _).trans (decodeL1_packet _ rest hw)
  | hash slot x => exact (hheader _).trans (decodeL1_packet _ rest hw)
  | buf x => exact (hheader _).trans (decodeL1_packet _ rest hw)
  | hmacInit slot y => exact (hheader _).trans (decodeL1_packet _ rest hw)
  | hmacUpdate slot x => exact (hheader _).trans (decodeL1_packet _ rest hw)
  | hmac slot x y => exact (hheader _).trans (decodeL2_packet _ rest hw.1 hw.2)
  | hmacBuf x y => exact (hheader _).trans (decodeL2_packet _ rest hw.1 hw.2)

/-- The step on the packet of an admitted command is that command (R80). -/
theorem step_of_encode {i : Instr} {s : State} {rest : List Byte} (hh : s.halted = false) (hw : WellFormed i)
    (hadm : headerFault (instrOpcode i) (instrSlotByte i) s = none) (hb : s.cmdIn = encode i ++ rest) :
    step s = .next (commandNext i s) := by
  have hd : decode s.cmdIn = .packet i rest := by rw [hb, decode_encode hw]
  rw [step, fetch_of_decode hh hd, hadm]
  exact exec_eq_commandNext hadm

/-- A run takes its first step, then the others. -/
theorem run_succ_of_step {M : Host.Core} {s t : M.State} (n : Nat) (h : M.step s = .next t) :
    M.run (n + 1) s = M.run n t := by
  rw [Host.Core.run, h]

/-- A run over the packet of an admitted command runs the command, then goes on over the bytes behind it. -/
theorem runOn_encode {i : Instr} {s : State} (n : Nat) (rest : List Byte) (hh : s.halted = false) (hw : WellFormed i)
    (hadm : headerFault (instrOpcode i) (instrSlotByte i) s = none) :
    runOn (n + 1) s (encode i ++ rest) = runOn n (commandNext i s) rest := by
  have hdrop : (encode i ++ rest).drop (packetLength i) = rest := List.drop_left' (length_encode i)
  have hnext : commandNext i { s with cmdIn := encode i ++ rest } = { commandNext i s with cmdIn := rest } := by
    rw [commandNext, hdrop]
    rfl
  have hstep : step { s with cmdIn := encode i ++ rest } = .next { commandNext i s with cmdIn := rest } :=
    hnext ▸ step_of_encode hh hw hadm rfl
  exact run_succ_of_step (M := core) n hstep

/-! ## Two commands that do not name the same slot -/

/-- The two commands name different slots, or one of them names none. -/
def NoCommonSlot (i j : Instr) : Prop :=
  opcodeNamesSlot (instrOpcode i) = true → opcodeNamesSlot (instrOpcode j) = true → instrSlotByte i ≠ instrSlotByte j

theorem NoCommonSlot.symm {i j : Instr} (h : NoCommonSlot i j) : NoCommonSlot j i :=
  fun hj hi => (h hi hj).symm

/-- The slot `j` names holds after `i` what it held before. -/
theorem NoCommonSlot.slotAt_commandNext {i j : Instr} (h : NoCommonSlot i j)
    (hj : opcodeNamesSlot (instrOpcode j) = true) (s : State) :
    (commandNext i s).slotAt (instrSlotByte j).toNat = s.slotAt (instrSlotByte j).toNat := by
  have hk : opcodeNamesSlot (instrOpcode i) = true → (instrSlotByte j).toNat ≠ (instrSlotByte i).toNat :=
    fun hi heq => h hi hj (BitVec.eq_of_toNat_eq heq.symm)
  have hget : (commandNext i s).slots[(instrSlotByte j).toNat]? = s.slots[(instrSlotByte j).toNat]? :=
    commandSlots_getElem?_ne hk
  rw [State.slotAt, State.slotAt, List.getD_eq_getElem?_getD, hget, ← List.getD_eq_getElem?_getD]

/-- Whether `j` is admitted does not change when `i` runs first. -/
theorem NoCommonSlot.headerFault_commandNext {i j : Instr} (h : NoCommonSlot i j) (s : State) :
    headerFault (instrOpcode j) (instrSlotByte j) (commandNext i s) =
      headerFault (instrOpcode j) (instrSlotByte j) s := by
  cases hj : opcodeNamesSlot (instrOpcode j) with
  | false => rw [headerFault_noSlot _ _ hj, headerFault_noSlot _ _ hj]
  | true => exact headerFault_congr (length_commandSlots i s) (by rw [h.slotAt_commandNext hj])

theorem commandResponse_of_noSlot {i : Instr} (h : opcodeNamesSlot (instrOpcode i) = false) (c d : Slot) :
    commandResponse i c = commandResponse i d := by
  cases i with
  | buf x => rfl
  | hmacBuf x y => rfl
  | _ => cases h

/-- What `j` emits does not change when `i` runs first. -/
theorem NoCommonSlot.commandResponse_commandNext {i j : Instr} (h : NoCommonSlot i j) (s : State) :
    commandResponse j ((commandNext i s).slotAt (instrSlotByte j).toNat) =
      commandResponse j (s.slotAt (instrSlotByte j).toNat) := by
  cases hj : opcodeNamesSlot (instrOpcode j) with
  | false => exact commandResponse_of_noSlot hj _ _
  | true => rw [h.slotAt_commandNext hj]

/-- The slots after both commands do not depend on which ran first: two different places of the list are set. -/
theorem NoCommonSlot.commandSlots_comm {i j : Instr} (h : NoCommonSlot i j) (s : State) :
    commandSlots j (commandNext i s) = commandSlots i (commandNext j s) := by
  cases hi : opcodeNamesSlot (instrOpcode i) with
  | false => simp only [commandSlots, commandNext, hi, Bool.false_eq_true, if_false, State.slotAt]
  | true =>
    cases hj : opcodeNamesSlot (instrOpcode j) with
    | false => simp only [commandSlots, commandNext, hj, Bool.false_eq_true, if_false, State.slotAt]
    | true =>
      have hne : (instrSlotByte i).toNat ≠ (instrSlotByte j).toNat :=
        fun heq => h hi hj (BitVec.eq_of_toNat_eq heq)
      rw [commandSlots, if_pos hj, h.slotAt_commandNext hj, commandSlots, if_pos hi, h.symm.slotAt_commandNext hi]
      simp only [commandNext, commandSlots, hi, hj, if_true]
      exact List.set_comm _ _ hne

/-- Two adjacent admitted commands with no slot in common run one after the other. -/
theorem NoCommonSlot.runOn_packets_pair {i j : Instr} (h : NoCommonSlot i j) {s : State} (rest : List Byte)
    (hh : s.halted = false) (hwi : WellFormed i) (hwj : WellFormed j)
    (hi : headerFault (instrOpcode i) (instrSlotByte i) s = none)
    (hj : headerFault (instrOpcode j) (instrSlotByte j) s = none) :
    runOn 2 s (packets [i, j] ++ rest) = .next { commandNext j (commandNext i s) with cmdIn := rest } := by
  have hpackets : packets [i, j] ++ rest = encode i ++ (encode j ++ rest) := by simp [packets]
  have hj' : headerFault (instrOpcode j) (instrSlotByte j) (commandNext i s) = none := by
    rw [h.headerFault_commandNext, hj]
  have hh' : (commandNext i s).halted = false := hh
  rw [hpackets, runOn_encode 1 _ hh hwi hi, runOn_encode 0 rest hh' hwj hj']
  rfl

/-- The response of the first command, then that of the second, each as if alone. -/
theorem NoCommonSlot.rspOut_commandNext_commandNext {i j : Instr} (h : NoCommonSlot i j) (s : State) :
    (commandNext j (commandNext i s)).rspOut =
      s.rspOut ++ commandResponse i (s.slotAt (instrSlotByte i).toNat) ++
        commandResponse j (s.slotAt (instrSlotByte j).toNat) := by
  rw [commandNext, h.commandResponse_commandNext]
  rfl

/-- A command alone on CMD_IN. -/
theorem runOn_packets_singleton {i : Instr} {s : State} (hh : s.halted = false) (hw : WellFormed i)
    (hadm : headerFault (instrOpcode i) (instrSlotByte i) s = none) :
    runOn 1 s (packets [i]) = .next { commandNext i s with cmdIn := [] } := by
  have hpackets : packets [i] = encode i ++ [] := by simp [packets]
  rw [hpackets, runOn_encode 0 [] hh hw hadm]
  rfl

/-- Settles O56: neither command sees the other's slot, so both orders run, emit the same two responses, and set the same
two places of the slot list. -/
theorem commandsOnDifferentSlotsCommute : Obligations.CommandsOnDifferentSlotsCommute := by
  intro i j s rest hh hwi hwj hslots hi hj
  have h : NoCommonSlot i j := hslots
  exact ⟨_, _, _, _, _, _, runOn_packets_singleton hh hwi hi, rfl, runOn_packets_singleton hh hwj hj, rfl,
    h.runOn_packets_pair rest hh hwi hwj hi hj, h.symm.runOn_packets_pair rest hh hwj hwi hj hi,
    h.commandSlots_comm s, rfl, rfl, rfl, rfl, rfl,
    h.rspOut_commandNext_commandNext s, h.symm.rspOut_commandNext_commandNext s⟩

/-! ## Words, lengths and their bytes -/

/-- Settles O33, from the value of four bytes and the two round trips. -/
theorem wordBytesInverse : Obligations.WordBytesInverse :=
  ⟨fun w => ⟨rfl, be32_of_toBe32 w⟩,
    fun b0 b1 b2 b3 => ⟨be32_toNat b0 b1 b2 b3, toBe32_of_be32 b0 b1 b2 b3⟩⟩

/-- Settles O34, from the value of eight bytes and the two round trips; a length that fits its field is read back. -/
theorem lengthFieldReadsBack : Obligations.LengthFieldReadsBack :=
  ⟨fun n => ⟨rfl, be64_of_toBe64 n⟩,
    fun b0 b1 b2 b3 b4 b5 b6 b7 => ⟨be64_eight b0 b1 b2 b3 b4 b5 b6 b7, (toBe64_of_be64 rfl).2⟩,
    fun _ hx => ⟨rfl, be64_toBe64_ofNat hx⟩⟩

end Sys2Proof.Proofs
end

section
/-! SUPPORT. The proofs of the statements on the encoding and the decode step (30_encoding.md): first what a step does with
each kind of header (R78 to R80), then with a packet, whole or incomplete (R82), then the obligations. -/

namespace Sys2Proof.Proofs

open Sys2Proof.Machine Sys2Proof.Laws

/-! ## The opcode map (R76, R78) -/

theorem mem_opcodes (op : Opcode) : op ∈ opcodes := by
  cases op <;> decide

/-- BUF and HMAC_BUF are the commands that name no slot. -/
theorem opcodeNamesSlot_eq_false_iff (op : Opcode) :
    opcodeNamesSlot op = false ↔ opcodeByte op = 0x05 ∨ opcodeByte op = 0x15 := by
  cases op <;> decide

/-- The OP bytes of the eight slot commands, read off the opcode map. -/
theorem exists_slotOpcode {h0 : Byte}
    (h : h0 ∈ ([0x01, 0x02, 0x03, 0x04, 0x11, 0x12, 0x13, 0x14] : List Byte)) :
    ∃ op, opcodeNamesSlot op = true ∧ opcodeByte op = h0 := by
  have hmap : h0 ∈ (opcodes.filter opcodeNamesSlot).map opcodeByte := h
  obtain ⟨op, hop, hb⟩ := List.mem_map.mp hmap
  exact ⟨op, (List.mem_filter.mp hop).2, hb⟩

/-- A header is illegal when every command its OP byte could stand for finds a reserved byte that is not zero: none at all
if the OP byte is no opcode (R78, R79). -/
theorem decodeHeader_illegal {h0 h1 h2 h3 : Byte} (body : List Byte)
    (h : ∀ op, opcodeByte op = h0 → h2 ≠ 0 ∨ h3 ≠ 0 ∨ (opcodeNamesSlot op = false ∧ h1 ≠ 0)) :
    decodeHeader (h0 :: h1 :: h2 :: h3 :: body) = .illegal h0 h1 := by
  rw [decodeHeader]
  cases hop : opcodeOfByte h0 with
  | none => rfl
  | some op => exact if_pos (h op (opcodeByte_of_opcodeOfByte hop))

/-! ## The packet layouts (R74, R75) -/

theorem encode_of_L1 {i : Instr} (h : opcodeFormat (instrOpcode i) = .L1) :
    encode i = [opcodeByte (instrOpcode i), instrSlotByte i, 0, 0] ++ lengthField (instrX i) ++ instrX i := by
  simp only [encode, h, List.append_assoc]

theorem encode_of_L2 {i : Instr} (h : opcodeFormat (instrOpcode i) = .L2) :
    encode i = [opcodeByte (instrOpcode i), instrSlotByte i, 0, 0] ++ lengthField (instrX i) ++
      lengthField (instrY i) ++ instrX i ++ instrY i := by
  simp only [encode, h, List.append_assoc]

/-! ## The STATUS words of the two causes (R222, R224) -/

theorem statusWord_illegalCommand (h0 h1 : Byte) : statusWord .illegalCommand h0 h1 =
    0x00000001 ||| (1 <<< 4) ||| (h1.zeroExtend 32 <<< 8) ||| (h0.zeroExtend 32 <<< 16) := rfl

theorem statusWord_badSlot (h0 h1 : Byte) : statusWord .badSlot h0 h1 =
    0x00000001 ||| (2 <<< 4) ||| (h1.zeroExtend 32 <<< 8) ||| (h0.zeroExtend 32 <<< 16) := rfl

/-! ## A step, by the header at the front of CMD_IN (R80) -/

section
variable {s : State} (hh : s.halted = false)
include hh

/-- Fewer than four bytes are waited on (R80 step 1). -/
theorem step_of_short (h : s.cmdIn.length < 4) : step s = .fault .waiting := by
  have hf : fetch s = .waiting := by rw [fetch, if_neg (by simp [hh]), decodeHeader_short h]
  rw [step, hf]

/-- An illegal header takes IllegalCommand (R80 step 2). -/
theorem step_of_illegal {h0 h1 : Byte} (hd : decodeHeader s.cmdIn = .illegal h0 h1) :
    step s = .next (s.raiseFault .illegalCommand h0 h1) := by
  have hf : fetch s = .raise .illegalCommand h0 h1 := by rw [fetch, if_neg (by simp [hh]), hd]
  rw [step, hf]

/-- A legal header that is not admitted takes its fault, whatever follows it (R80 steps 3 and 4). -/
theorem step_of_headerFault {op : Opcode} {h1 : Byte} {body : List Byte} {c : Cause}
    (hd : decodeHeader s.cmdIn = .command op h1 body) (hc : headerFault op h1 s = some c) :
    step s = .next (s.raiseFault c (opcodeByte op) h1) := by
  have hf : fetch s = .raise c (opcodeByte op) h1 := by rw [fetch, if_neg (by simp [hh]), hd]; simp only [hc]
  rw [step, hf]

/-- The rest of an admitted packet is waited on (R80 step 5). -/
theorem step_of_incomplete {op : Opcode} {h1 : Byte} {body : List Byte}
    (hd : decodeHeader s.cmdIn = .command op h1 body) (hadm : headerFault op h1 s = none)
    (hb : decodeBody op h1 body = .incomplete) : step s = .fault .waiting := by
  have hf : fetch s = .waiting := by rw [fetch, if_neg (by simp [hh]), hd]; simp only [hadm, hb]
  rw [step, hf]

/-- A whole packet makes the step its command: the fault of its header is the one `exec` raises (R80 step 6). -/
theorem step_of_decode {i : Instr} {rest : List Byte} (h : decode s.cmdIn = .packet i rest) : step s = exec i s := by
  rw [step, fetch_of_decode hh h]
  cases hc : headerFault (instrOpcode i) (instrSlotByte i) s with
  | none => rfl
  | some c => exact (exec_faulted hc).symm

end

/-! ## A proper beginning of a packet (R82) -/

/-- No packet begins another one: a proper beginning of a packet holds no packet (R77, R81). -/
theorem decode_ne_packet_of_encode_eq {i j : Instr} {bytes missing rest : List Byte} (hw : WellFormed i)
    (hm : missing ≠ []) (he : encode i = bytes ++ missing) : decode bytes ≠ .packet j rest := by
  intro hd
  obtain ⟨hwj, rfl⟩ := eq_encode_of_decode hd
  have hi : decode (encode i) = .packet i [] := by simpa using decode_encode hw []
  have hj : decode (encode i) = .packet j (rest ++ missing) := by
    rw [he, List.append_assoc, decode_encode hwj]
  rw [hi, Decoded.packet.injEq] at hj
  exact hm (List.append_eq_nil_iff.mp hj.2.symm).2

/-- Four or more of a packet's first bytes hold its header (R71). -/
theorem decodeHeader_of_encode_eq {i : Instr} {bytes missing : List Byte} (he : encode i = bytes ++ missing)
    (h4 : 4 ≤ bytes.length) :
    decodeHeader bytes = .command (instrOpcode i) (instrSlotByte i) (bytes.drop 4) := by
  have htake : bytes.take 4 = [opcodeByte (instrOpcode i), instrSlotByte i, 0, 0] := by
    rw [← List.take_append_of_le_length h4, ← he]
    rfl
  have hbytes : bytes = opcodeByte (instrOpcode i) :: instrSlotByte i :: 0 :: 0 :: bytes.drop 4 := by
    conv_lhs => rw [← List.take_append_drop 4 bytes, htake]
    rfl
  conv_lhs => rw [hbytes]
  exact decodeHeader_command _ instrSlotByte_of_noSlot

/-- The engine waits for the rest of an admitted packet, wherever it was cut off. -/
theorem step_of_proper_beginning {i : Instr} {s : State} {missing : List Byte} (hh : s.halted = false)
    (hw : WellFormed i) (hadm : headerFault (instrOpcode i) (instrSlotByte i) s = none) (hm : missing ≠ [])
    (he : encode i = s.cmdIn ++ missing) : step s = .fault .waiting := by
  by_cases h4 : s.cmdIn.length < 4
  · exact step_of_short hh h4
  · have hd := decodeHeader_of_encode_eq he (Nat.le_of_not_lt h4)
    cases hb : decodeBody (instrOpcode i) (instrSlotByte i) (s.cmdIn.drop 4) with
    | incomplete => exact step_of_incomplete hh hd hadm hb
    | illegal h0 h1 => exact absurd hb (decodeBody_ne_illegal _ _ _ _ _)
    | packet j rest =>
      have hp : decode s.cmdIn = .packet j rest := by rw [decode, hd]; exact hb
      exact absurd hp (decode_ne_packet_of_encode_eq hw hm he)

/-! ## The obligations -/

/-- Settles O1, format by format in `decode_encode`. -/
theorem decodeEncodeRoundTrip : Obligations.DecodeEncodeRoundTrip :=
  fun _ rest hw => decode_encode hw rest

/-- Settles O2, by what the header and the body of a whole packet looked like (`eq_encode_of_decode`). -/
theorem encodeDecodeRoundTrip : Obligations.EncodeDecodeRoundTrip :=
  fun _ _ _ h => eq_encode_of_decode h

/-- Settles O7: a short or cut-off packet is waited on, and the rest makes it a whole packet. -/
theorem incompletePacketWaits : Obligations.IncompletePacketWaits := by
  intro s hh
  constructor
  · intro h t
    rw [step_of_short hh h]
    exact nofun
  · intro i missing hw hadm hm he
    constructor
    · intro t
      rw [step_of_proper_beginning hh hw hadm hm he]
      exact nofun
    · have hh' : (hostAct s (.send missing)).halted = false := hh
      have hwhole : (hostAct s (.send missing)).cmdIn = encode i ++ [] := by rw [List.append_nil, he]; rfl
      exact step_of_decode hh' (by rw [hwhole, decode_encode hw])

/-- Settles O8: under each of the four conditions no command fits the header. -/
theorem illegalCommandIsTaken : Obligations.IllegalCommandIsTaken := by
  intro s h0 h1 h2 h3 rest hh hb hbad
  have hd : decodeHeader s.cmdIn = .illegal h0 h1 := by
    rw [hb]
    refine decodeHeader_illegal rest fun op hop => ?_
    obtain hno | hne2 | hne3 | ⟨hbuf, hne1⟩ := hbad
    · have hmem : opcodeByte op ∈ opcodes.map opcodeByte := List.mem_map_of_mem (mem_opcodes op)
      exact absurd (hop ▸ hmem) hno
    · exact .inl hne2
    · exact .inr (.inl hne3)
    · exact .inr (.inr ⟨(opcodeNamesSlot_eq_false_iff op).mpr (hop ▸ hbuf), hne1⟩)
  rw [step_of_illegal hh hd, State.raiseFault, statusWord_illegalCommand]

/-- Settles O9: the header is legal, so the slot number is what it is tested for next. -/
theorem badSlotIsTaken : Obligations.BadSlotIsTaken := by
  intro s h0 h1 rest hh hb hmem hslot
  obtain ⟨op, hop, rfl⟩ := exists_slotOpcode hmem
  have hd : decodeHeader s.cmdIn = .command op h1 rest := by
    rw [hb]
    exact decodeHeader_command rest (by simp [hop])
  rw [step_of_headerFault hh hd (headerFault_badSlot hop hslot), State.raiseFault, statusWord_badSlot]

/-- Settles O3, by evaluating the decoder on each packet and each table word. -/
theorem decodeKnownPackets : Obligations.DecodeKnownPackets := by
  unfold Obligations.DecodeKnownPackets
  decide

/-- Settles O4, each command by the layout of its format. -/
theorem packetLayouts : Obligations.PacketLayouts :=
  fun _ _ _ => ⟨rfl, encode_of_L1 rfl, rfl, encode_of_L1 rfl, encode_of_L1 rfl, encode_of_L1 rfl, encode_of_L1 rfl, rfl,
    encode_of_L2 rfl, encode_of_L2 rfl⟩

/-- Settles O5, faults of the header included (`step_of_decode`). -/
theorem stepRunsDecodedInstruction : Obligations.StepRunsDecodedInstruction :=
  fun _ _ _ hh h => step_of_decode hh h

end Sys2Proof.Proofs
end

section
/-! SUPPORT. The proofs of the statements on the compression engine (40_compression.md): the word functions and the round
constants, the schedule read word by word, its linearity, the rounds, and last what a command reads of the state. -/

namespace Sys2Proof.Proofs

open Sys2Proof.Machine Sys2Proof.Laws

/-! ## Rotations and round constants (R101 to R106) -/

/-- Bit `i` of a rotated word, the position counted modulo 32 (R11). -/
theorem getLsbD_rotl (x : Word) (n : Nat) {i : Nat} (hi : i < 32) :
    (rotl x n).getLsbD i = x.getLsbD ((i + (32 - n % 32)) % 32) := by
  rw [rotl, BitVec.getLsbD_rotateLeft]
  by_cases h : i < n % 32
  · rw [decide_eq_true h, cond_true]
    congr 1
    omega
  · rw [decide_eq_false h, cond_false, decide_eq_true hi, Bool.true_and]
    congr 1
    omega

/-- Rotations add up. -/
theorem rotl_rotl (x : Word) (m n : Nat) : rotl (rotl x m) n = rotl x (m + n) := by
  apply BitVec.eq_of_getLsbD_eq
  intro i hi
  rw [getLsbD_rotl _ _ hi, getLsbD_rotl _ _ (Nat.mod_lt _ (by decide)), getLsbD_rotl _ _ hi]
  congr 1
  omega

theorem rotl_xor (x y : Word) (n : Nat) : rotl (x ^^^ y) n = rotl x n ^^^ rotl y n := by
  apply BitVec.eq_of_getLsbD_eq
  intro i hi
  rw [getLsbD_rotl _ _ hi, BitVec.getLsbD_xor, BitVec.getLsbD_xor, getLsbD_rotl _ _ hi, getLsbD_rotl _ _ hi]

theorem p1_xor (x y : Word) : p1 (x ^^^ y) = p1 x ^^^ p1 y := by
  simp only [p1, rotl_xor]
  ac_rfl

theorem baseConstant_low {j : Nat} (h : j ≤ 15) : baseConstant j = 0x79CC4519 := if_pos h

theorem baseConstant_high {j : Nat} (h : 16 ≤ j) : baseConstant j = 0x7A879D8A := if_neg (by omega)

/-- Within one sequence, `m` rounds on the constant is rotated `m` places further. -/
theorem roundConstant_add {j : Nat} (m : Nat) (h : baseConstant (j + m) = baseConstant j) :
    roundConstant (j + m) = rotl (roundConstant j) m := by
  have hmod (x : Word) (n : Nat) : rotl x (n % 32) = rotl x n := BitVec.rotateLeft_mod_eq_rotateLeft
  rw [roundConstant, roundConstant, h, hmod, hmod, rotl_rotl]

theorem baseConstant_add_of_high {j : Nat} (m : Nat) (h : 16 ≤ j) : baseConstant (j + m) = baseConstant j := by
  rw [baseConstant_high h, baseConstant_high (by omega)]

/-- Settles O38: the recurrences because rotations add up, the starting values and the table by evaluation. -/
theorem roundConstantSequences : Obligations.RoundConstantSequences := by
  refine ⟨fun _ h => baseConstant_low h, fun _ h _ => baseConstant_high h, fun _ _ => rfl, by decide, by decide, by decide,
    ?_, ?_, ?_, by decide, by decide⟩
  · intro j h
    exact roundConstant_add 1 (by rw [baseConstant_low (by omega), baseConstant_low (by omega)])
  · intro j h _
    exact roundConstant_add 1 (baseConstant_add_of_high 1 h)
  · intro j h _
    rw [roundConstant, roundConstant, baseConstant_add_of_high 32 h, Nat.add_mod_right]

/-! ## The schedule, word by word (R108 to R110) -/

theorem getD_beWords {k i : Nat} (h : i < k) (l : List Byte) :
    (beWords k l).getD i 0 = be32 ((l.drop (4 * i)).take 4) := by
  induction k generalizing i l with
  | zero => cases h
  | succ k ih =>
    cases i with
    | zero => rfl
    | succ i => rw [beWords, List.getD_cons_succ, ih (by omega), List.drop_drop, Nat.mul_succ, Nat.add_comm]

theorem extendSchedule_succ (k : Nat) (h : List Word) :
    extendSchedule (k + 1) h = nextScheduleWord (extendSchedule k h) :: extendSchedule k h := by
  rw [extendSchedule_add, extendSchedule_one]

/-- Each of the new words is the next word of those behind it. -/
theorem getD_extendSchedule {j k : Nat} (h : j < k) (l : List Word) :
    (extendSchedule k l).getD j 0 = nextScheduleWord ((extendSchedule k l).drop (j + 1)) := by
  induction k generalizing j with
  | zero => cases h
  | succ k ih =>
    rw [extendSchedule_succ, List.drop_succ_cons]
    cases j with
    | zero => rfl
    | succ j => exact ih (by omega)

/-- The words of the block come first in the schedule (R108). -/
theorem scheduleWords_eq_append (b : Block) : ∃ l, scheduleWords b = beWords 16 b.toList ++ l := by
  obtain ⟨l, hl⟩ := extendSchedule_suffix 52 (beWords 16 b.toList).reverse
  exact ⟨l.reverse, by rw [scheduleWords, hl, List.reverse_append, List.reverse_reverse]⟩

theorem getD_scheduleWords_of_lt {i : Nat} (h : i < 16) (b : Block) :
    (scheduleWords b).getD i 0 = be32 ((b.toList.drop (4 * i)).take 4) := by
  obtain ⟨l, hl⟩ := scheduleWords_eq_append b
  rw [hl, List.getD_append _ _ _ _ (by rwa [length_beWords]), getD_beWords h]

/-- From word 16 on, each word is the next one of the words before it (R109). -/
theorem getD_scheduleWords_of_ge {i : Nat} (h : 16 ≤ i) (h' : i < 68) (b : Block) :
    (scheduleWords b).getD i 0 = nextScheduleWord ((scheduleWords b).take i).reverse := by
  have hlen : (extendSchedule 52 (beWords 16 b.toList).reverse).length = 68 := by
    rw [length_extendSchedule, List.length_reverse, length_beWords]
  rw [scheduleWords, List.getD_reverse _ (by rwa [hlen]), getD_extendSchedule (by omega), List.take_reverse,
    List.reverse_reverse, hlen]
  congr 2
  omega

theorem getD_reverse_take {l : List Word} {i n : Nat} (hi : i ≤ l.length) (hn : n < i) :
    (l.take i).reverse.getD n 0 = l.getD (i - 1 - n) 0 := by
  have hlen : (l.take i).length = i := List.length_take_of_le hi
  rw [List.getD_reverse _ (by rwa [hlen]), hlen, List.getD_eq_getElem?_getD, List.getElem?_take_of_lt (by omega),
    ← List.getD_eq_getElem?_getD]

theorem getD_secondWords {i : Nat} (h : i < 64) (w : List Word) :
    (secondWords w).getD i 0 = w.getD i 0 ^^^ w.getD (i + 4) 0 := by
  rw [secondWords, List.getD_eq_getElem _ _ (by simpa using h), List.getElem_map, List.getElem_range]

/-- Settles O37, word by word: decoded (R108), by the recurrence (R109), of the second sequence (R110). -/
theorem scheduleRecurrence : Obligations.ScheduleRecurrence := by
  intro b w hw
  simp only [expand_w_toList] at hw
  refine ⟨fun i h => by rw [hw, getD_scheduleWords_of_lt h], fun i h h' => ?_, fun i h => ?_⟩
  · have hword (n : Nat) (hn : n < 16) : ((scheduleWords b).take i).reverse.getD n 0 = w (i - 1 - n) := by
      rw [hw, getD_reverse_take (by rw [length_scheduleWords]; omega) (by omega)]
    rw [hw i, getD_scheduleWords_of_ge h h', nextScheduleWord, hword 15 (by decide), hword 8 (by decide),
      hword 2 (by decide), hword 12 (by decide), hword 5 (by decide)]
    rfl
  · rw [expand_w1_toList, getD_secondWords h, hw, hw]

/-! ## The schedule is linear over exclusive-or (R111) -/

theorem toBe32_xor (w w' : Word) : toBe32 (w ^^^ w') = List.zipWith (· ^^^ ·) (toBe32 w) (toBe32 w') := by
  simp [toBe32, BitVec.extractLsb'_xor]

theorem exists_toBe32_of_length {l : List Byte} (h : l.length = 4) : ∃ w, l = toBe32 w := by
  match l, h with
  | [b0, b1, b2, b3], _ => exact ⟨_, (toBe32_of_be32 b0 b1 b2 b3).symm⟩

theorem be32_zipWith_xor {l l' : List Byte} (h : l.length = 4) (h' : l'.length = 4) :
    be32 (List.zipWith (· ^^^ ·) l l') = be32 l ^^^ be32 l' := by
  obtain ⟨w, rfl⟩ := exists_toBe32_of_length h
  obtain ⟨w', rfl⟩ := exists_toBe32_of_length h'
  rw [← toBe32_xor, be32_of_toBe32, be32_of_toBe32, be32_of_toBe32]

theorem beWords_zipWith_xor {k : Nat} {l l' : List Byte} (h : 4 * k ≤ l.length) (h' : 4 * k ≤ l'.length) :
    beWords k (List.zipWith (· ^^^ ·) l l') = List.zipWith (· ^^^ ·) (beWords k l) (beWords k l') := by
  induction k generalizing l l' with
  | zero => rfl
  | succ k ih =>
    rw [beWords, beWords, beWords, List.zipWith_cons_cons, List.take_zipWith, List.drop_zipWith,
      be32_zipWith_xor (by rw [List.length_take]; omega) (by rw [List.length_take]; omega),
      ih (by rw [List.length_drop]; omega) (by rw [List.length_drop]; omega)]

theorem getD_zipWith_xor {l l' : List Word} (h : l.length = l'.length) (n : Nat) :
    (List.zipWith (· ^^^ ·) l l').getD n 0 = l.getD n 0 ^^^ l'.getD n 0 := by
  have hlen : (List.zipWith (· ^^^ ·) l l').length = l.length := by rw [List.length_zipWith, ← h, Nat.min_self]
  by_cases hn : n < l.length
  · rw [List.getD_eq_getElem l _ hn, List.getD_eq_getElem l' _ (by rwa [← h]),
      List.getD_eq_getElem _ _ (by rwa [hlen]), List.getElem_zipWith]
  · rw [List.getD_eq_default l _ (by omega), List.getD_eq_default l' _ (by omega),
      List.getD_eq_default _ _ (by omega)]
    rfl

theorem nextScheduleWord_zipWith_xor {l l' : List Word} (h : l.length = l'.length) :
    nextScheduleWord (List.zipWith (· ^^^ ·) l l') = nextScheduleWord l ^^^ nextScheduleWord l' := by
  simp only [nextScheduleWord, getD_zipWith_xor h, p1_xor, rotl_xor]
  ac_rfl

theorem extendSchedule_zipWith_xor (k : Nat) {l l' : List Word} (h : l.length = l'.length) :
    extendSchedule k (List.zipWith (· ^^^ ·) l l') =
      List.zipWith (· ^^^ ·) (extendSchedule k l) (extendSchedule k l') := by
  induction k generalizing l l' with
  | zero => rfl
  | succ k ih =>
    rw [extendSchedule, extendSchedule, extendSchedule, nextScheduleWord_zipWith_xor h, ← ih (by simpa using h),
      List.zipWith_cons_cons]

/-- Decoding the words, the recurrence, and reversing the list are each linear. -/
theorem scheduleWords_zipWith_xor {b b' bx : Block} (h : bx.toList = List.zipWith (· ^^^ ·) b.toList b'.toList) :
    scheduleWords bx = List.zipWith (· ^^^ ·) (scheduleWords b) (scheduleWords b') := by
  have hseed : (beWords 16 b.toList).length = (beWords 16 b'.toList).length := by rw [length_beWords, length_beWords]
  have hnewest : (beWords 16 b.toList).reverse.length = (beWords 16 b'.toList).reverse.length := by
    rwa [List.length_reverse, List.length_reverse]
  rw [scheduleWords, scheduleWords, scheduleWords, h, beWords_zipWith_xor (by simp) (by simp),
    List.reverse_zipWith hseed, extendSchedule_zipWith_xor 52 hnewest,
    List.reverse_zipWith (by rw [length_extendSchedule, length_extendSchedule, hnewest])]

theorem secondWords_zipWith_xor {w w' : List Word} (h : w.length = w'.length) :
    secondWords (List.zipWith (· ^^^ ·) w w') = List.zipWith (· ^^^ ·) (secondWords w) (secondWords w') := by
  simp only [secondWords, List.zipWith_map, List.zipWith_self, getD_zipWith_xor h]
  congr 1
  funext i
  ac_rfl

/-- Settles O41: both sequences are built by linear operations alone. -/
theorem expandIsLinear : Obligations.ExpandIsLinear := by
  intro b b' bx h
  have hw : (scheduleWords b).length = (scheduleWords b').length := by rw [length_scheduleWords, length_scheduleWords]
  constructor
  · rw [expand_w_toList, expand_w_toList, expand_w_toList, scheduleWords_zipWith_xor h]
  · rw [expand_w1_toList, expand_w1_toList, expand_w1_toList, scheduleWords_zipWith_xor h, secondWords_zipWith_xor hw]

/-! ## The rounds (R112 to R116) -/

theorem ff_of_low {j : Nat} (h : j < 16) (x y z : Word) : ff j x y z = x ^^^ y ^^^ z := if_pos (by omega)

theorem ff_of_high {j : Nat} (h : ¬ j < 16) (x y z : Word) : ff j x y z = (x &&& y) ||| ((x ||| y) &&& z) :=
  if_neg (by omega)

theorem gg_of_low {j : Nat} (h : j < 16) (x y z : Word) : gg j x y z = x ^^^ y ^^^ z := if_pos (by omega)

theorem gg_of_high {j : Nat} (h : ¬ j < 16) (x y z : Word) : gg j x y z = z ^^^ (x &&& (y ^^^ z)) := if_neg (by omega)

/-- Settles O39, for each half of the rounds. -/
theorem roundWritesAllRegisters : Obligations.RoundWritesAllRegisters := by
  intro sch a b c d e f g h s1 t1 t2 j _
  by_cases hj : j < 16
  · simp only [Machine.round, ff_of_low hj, gg_of_low hj, if_pos hj, p0]
  · simp only [Machine.round, ff_of_high hj, gg_of_high hj, if_neg hj, p0]

/-- The registers after the first `k` rounds (R114). -/
def roundsUpTo (sch : Schedule) (vin : HashState) (k : Nat) : RoundRegs :=
  (List.range k).foldl (Machine.round sch) ⟨vin, 0, 0, 0⟩

theorem roundsUpTo_succ (sch : Schedule) (vin : HashState) (k : Nat) :
    roundsUpTo sch vin (k + 1) = Machine.round sch (roundsUpTo sch vin k) k := by
  rw [roundsUpTo, List.range_succ, List.foldl_append]
  rfl

theorem rounds_eq_roundsUpTo (sch : Schedule) (vin : HashState) : rounds sch vin = roundsUpTo sch vin 64 := rfl

theorem stateWords_xorState (v x : HashState) :
    stateWords (xorState v x) = List.zipWith (· ^^^ ·) (stateWords v) (stateWords x) := rfl

/-- Settles O40: the registers after each number of rounds, the last of them fed forward. -/
theorem compressionIsSixtyFourRounds : Obligations.CompressionIsSixtyFourRounds := by
  intro vin b
  refine ⟨roundsUpTo (expand b) vin, rfl, fun j _ => roundsUpTo_succ _ _ j, ?_⟩
  rw [cf, stateWords_xorState, rounds_eq_roundsUpTo]

/-! ## What a command reads of the state (R118, R187, R230) -/

/-- What an admitted command leaves in its slot depends on that slot alone. -/
theorem commandNext_slotAt_congr {i : Instr} {s s' : State}
    (hs : headerFault (instrOpcode i) (instrSlotByte i) s = none)
    (hs' : headerFault (instrOpcode i) (instrSlotByte i) s' = none)
    (h : s.slotAt (instrSlotByte i).toNat = s'.slotAt (instrSlotByte i).toNat) :
    (commandNext i s).slotAt (instrSlotByte i).toNat = (commandNext i s').slotAt (instrSlotByte i).toNat := by
  cases hop : opcodeNamesSlot (instrOpcode i) with
  | true =>
    rw [commandNext_slotAt hop (of_headerFault_none hs hop).1, commandNext_slotAt hop (of_headerFault_none hs' hop).1, h]
  | false =>
    have hkeep (u : State) : (commandNext i u).slots = u.slots := if_neg (by simp [hop])
    rw [slotAt_congr (hkeep s), slotAt_congr (hkeep s'), h]

/-- Settles O57: the header check takes the same branch in both states; a fault emits nothing and keeps the slot, and an
admitted command reads its own slot alone. -/
theorem responseDependsOnlyOnNamedSlot : Obligations.ResponseDependsOnlyOnNamedSlot := by
  intro i s s' hn h
  have hcheck : headerFault (instrOpcode i) (instrSlotByte i) s' = headerFault (instrOpcode i) (instrSlotByte i) s :=
    headerFault_congr hn.symm (by rw [h])
  cases hf : headerFault (instrOpcode i) (instrSlotByte i) s with
  | none =>
    rw [hf] at hcheck
    exact ⟨commandNext i s, commandNext i s', commandResponse i (s.slotAt (instrSlotByte i).toNat),
      exec_eq_commandNext hf, exec_eq_commandNext hcheck, rfl, by rw [h]; rfl, commandNext_slotAt_congr hf hcheck h⟩
  | some c =>
    rw [hf] at hcheck
    exact ⟨_, _, [], exec_faulted hf, exec_faulted hcheck, (List.append_nil _).symm, (List.append_nil _).symm, h⟩

end Sys2Proof.Proofs
end

section
/-! SUPPORT. The proofs of the statements on the streaming accumulator (41_streaming.md): absorption of no byte and in pieces
(R138 to R140), then what INIT and UPDATE leave, then the blocks each command compresses (R142, R159, R186), and with each
the obligations it settles. -/

namespace Sys2Proof.Proofs

open Sys2Proof.Machine Sys2Proof.Laws

/-! ## Absorption (R134 to R141) -/

/-- What an absorption leaves pending is what its blocks do not cover. -/
theorem pendingCount_absorb_eq_sub (c : Slot) (x : List Byte) :
    pendingCount (absorb c x) =
      (pendingBytes c ++ x).length - 64 * ((pendingBytes c ++ x).length / 64) := by
  rw [← length_leftover_absorb, leftover, List.length_drop]

/-- Settles O26, field by field; the pending count is the length of what the blocks leave over. -/
theorem absorbFollowsTheRule : Obligations.AbsorbFollowsTheRule := by
  intro c x p r k hr hp hk
  subst hr hp hk
  refine ⟨cfAll_blocks _ _ _, absorb_n_toNat c x, ?_, rfl, rfl, pendingCount_absorb_eq_sub c x⟩
  rw [absorb_buf_toList, pendingCount_absorb_eq_sub]
  rfl

theorem absorbBlocks_of_short {c : Slot} {x : List Byte} (h : pendingCount c + x.length < 64) :
    absorbBlocks c x = [] := by
  have hlen : (pendingBytes c ++ x).length / 64 = 0 := by
    rw [List.length_append, length_pendingBytes, Nat.div_eq_of_lt h]
  rw [absorbBlocks, wholeBlocks, hlen, blocks]

theorem pendingBytes_absorb_of_short {c : Slot} {x : List Byte} (h : pendingCount c + x.length < 64) :
    pendingBytes (absorb c x) = pendingBytes c ++ x := by
  rw [pendingBytes_absorb, leftover_of_short (by rwa [List.length_append, length_pendingBytes])]

/-- A buffer that is zero behind its pending bytes is those bytes, zero-filled (R24). -/
theorem blockOf_pendingBytes {c : Slot} (h : c.buf.toList.drop (pendingCount c) = rep 0 (64 - pendingCount c)) :
    blockOf (pendingBytes c) = c.buf := by
  have hr := length_pendingBytes c
  have hlt := pendingCount_lt c
  apply Vector.toList_inj.mp
  rw [blockOf_toList_of_le (by omega), hr, ← h, pendingBytes, List.take_append_drop]

/-- Absorbing nothing changes nothing where BUF is zero behind the pending bytes (R139). -/
theorem absorb_nil {c : Slot} (h : c.buf.toList.drop (pendingCount c) = rep 0 (64 - pendingCount c)) :
    absorb c [] = c := by
  have hlt : (pendingBytes c).length < 64 := length_pendingBytes c ▸ pendingCount_lt c
  rw [absorb, absorbBlocks_of_short (x := []) (pendingCount_lt c), List.append_nil, leftover_of_short hlt,
    blockOf_pendingBytes h]
  simp [cfAll_nil]

/-- The blocks of two absorptions, one after the other. -/
theorem absorbBlocks_append (c : Slot) (x y : List Byte) :
    absorbBlocks c (x ++ y) = absorbBlocks c x ++ absorbBlocks (absorb c x) y := by
  rw [absorbBlocks, absorbBlocks, absorbBlocks, ← List.append_assoc, wholeBlocks_append, pendingBytes_absorb]

/-- Absorbing in two pieces is absorbing at once (R140). -/
theorem absorb_absorb (c : Slot) (x y : List Byte) : absorb (absorb c x) y = absorb c (x ++ y) := by
  have hv : cfAll (absorb c x).v (absorbBlocks (absorb c x) y) = cfAll c.v (absorbBlocks c (x ++ y)) := by
    rw [absorbBlocks_append, cfAll_append, absorb_v]
  have hn : (absorb c x).n + BitVec.ofNat 64 (8 * y.length) = c.n + BitVec.ofNat 64 (8 * (x ++ y).length) := by
    rw [List.length_append, Nat.mul_add, BitVec.ofNat_add, ← BitVec.add_assoc]
    rfl
  have hbuf : leftover (pendingBytes (absorb c x) ++ y) = leftover (pendingBytes c ++ (x ++ y)) := by
    rw [pendingBytes_absorb, ← leftover_append, List.append_assoc]
  rw [absorb, hv, hn, hbuf]
  rfl

/-- Absorbing a first piece and then the others is absorbing them all at once (R140). -/
theorem foldl_absorb (c : Slot) (x : List Byte) (pieces : List (List Byte)) :
    (x :: pieces).foldl absorb c = absorb c (x :: pieces).flatten := by
  induction pieces generalizing x with
  | nil => simp
  | cons y pieces ih => simpa [absorb_absorb] using ih (x ++ y)

/-- From a fresh context no first piece is needed: absorbing nothing changes nothing there. -/
theorem foldl_absorb_initContext (pieces : List (List Byte)) :
    pieces.foldl absorb initContext = absorb initContext pieces.flatten := by
  cases pieces with
  | nil => exact (absorb_nil rfl).symm
  | cons x pieces => exact foldl_absorb initContext x pieces

/-- Settles O29: the pieces are absorbed as one message, by the rule of `absorbFollowsTheRule`; its counter does not wrap. -/
theorem canonicalStateOfMessage : Obligations.CanonicalStateOfMessage := by
  intro pieces hlen m c
  have hc : c = absorb initContext m := foldl_absorb_initContext pieces
  obtain ⟨hv, hn, hbuf, hokey, hphase, -⟩ := absorbFollowsTheRule initContext m m 0 (m.length / 64) rfl rfl rfl
  have hwrap : (initContext.n.toNat + 8 * m.length) % 2 ^ 64 = 8 * m.length := by
    have hzero : initContext.n.toNat = 0 := rfl
    have hm : m.length < 2 ^ 61 := hlen
    omega
  have hmod : m.length - 64 * (m.length / 64) = m.length % 64 := by omega
  rw [hc]
  exact ⟨hn.trans hwrap, hv, hmod ▸ hbuf, hokey, hphase⟩

/-! ## INIT and UPDATE (R131, R133) -/

/-- A command that names a slot and emits nothing: its slot rewritten, SCR erased, its packet consumed. -/
theorem exec_of_silent {i : Instr} {s : State} (hop : opcodeNamesSlot (instrOpcode i) = true)
    (hadm : headerFault (instrOpcode i) (instrSlotByte i) s = none)
    (hr : commandResponse i (s.slotAt (instrSlotByte i).toNat) = []) :
    exec i s = .next { s with
      slots := s.slots.set (instrSlotByte i).toNat (commandSlot i (s.slotAt (instrSlotByte i).toNat))
      scr := Scr.erased
      cmdIn := s.cmdIn.drop (packetLength i) } := by
  rw [exec_eq_commandNext hadm, commandNext, hr, List.append_nil, commandSlots, if_pos hop]

/-- Settles O16: INIT is admitted on every slot that exists. -/
theorem initResult : Obligations.InitResult :=
  fun _ _ => ⟨fun hs => exec_of_silent rfl (headerFault_none hs rfl) rfl,
    fun hs => exec_faulted (headerFault_badSlot rfl hs)⟩

theorem slotImage_initContext : slotImage initContext =
    [0x73, 0x80, 0x16, 0x6f, 0x49, 0x14, 0xb2, 0xb9, 0x17, 0x24, 0x42, 0xd7, 0xda, 0x8a, 0x06, 0x00,
      0xa9, 0x6f, 0x30, 0xbc, 0x16, 0x31, 0x38, 0xaa, 0xe3, 0x8d, 0xee, 0x4d, 0xb0, 0xfb, 0x0e, 0x4e] ++
      List.replicate 136 0 ++ [0x01] ++ List.replicate 7 0 := rfl

/-- Settles O51: the slot holds the fresh context, whose image is fixed. -/
theorem imageAfterInitIsFixed : Obligations.ImageAfterInitIsFixed := by
  intro slot s hs
  refine ⟨_, exec_of_silent rfl (headerFault_none hs rfl) rfl, ?_⟩
  rw [← slotImage_initContext]
  simp only [State.image, instrSlotByte, List.getElem?_set_self hs, commandSlot, Option.map_some]

/-- A command that requires a phase is allowed in it alone (R221, R235). -/
theorem phaseAllows_iff {op : Opcode} {q : Phase} (h : requiredPhase op = some q) (p : Phase) :
    phaseAllows op p = true ↔ p = q := by
  rw [phaseAllows, h]
  exact beq_iff_eq

theorem headerFault_none_of_phase {op : Opcode} {q : Phase} {slot : Byte} {s : State} (h : requiredPhase op = some q)
    (hs : slot.toNat < s.nctx) (hp : (s.slotAt slot.toNat).phase = q) : headerFault op slot s = none :=
  headerFault_none hs ((phaseAllows_iff h _).mpr hp)

theorem headerFault_lifecycle_of_phase {op : Opcode} {q : Phase} {slot : Byte} {s : State}
    (hop : opcodeNamesSlot op = true) (h : requiredPhase op = some q) (hs : slot.toNat < s.nctx)
    (hp : (s.slotAt slot.toNat).phase ≠ q) : headerFault op slot s = some .lifecycleFault :=
  headerFault_lifecycle hop hs (Bool.eq_false_iff.mpr fun ha => hp ((phaseAllows_iff h _).mp ha))

/-- UPDATE on a slot in phase HASH (R133). -/
theorem exec_update {slot : Byte} {s : State} (x : List Byte) (hs : slot.toNat < s.nctx)
    (hp : (s.slotAt slot.toNat).phase = .hash) :
    exec (.update slot x) s = .next { s with
      slots := s.slots.set slot.toNat (absorb (s.slotAt slot.toNat) x)
      scr := Scr.erased
      cmdIn := s.cmdIn.drop (12 + x.length) } :=
  exec_of_silent (i := .update slot x) rfl (headerFault_none_of_phase rfl hs hp) rfl

/-- UPDATE on a slot in another phase (R221). -/
theorem exec_update_lifecycle {slot : Byte} {s : State} (x : List Byte) (hs : slot.toNat < s.nctx)
    (hp : (s.slotAt slot.toNat).phase ≠ .hash) :
    exec (.update slot x) s = .next (s.raiseFault .lifecycleFault 0x02 slot) :=
  exec_faulted (i := .update slot x) (headerFault_lifecycle_of_phase rfl rfl hs hp)

/-- Settles O17: admitted, in the wrong phase, or on no slot. -/
theorem updateResult : Obligations.UpdateResult :=
  fun _ x _ => ⟨exec_update x, exec_update_lifecycle x, fun hs => exec_faulted (headerFault_badSlot rfl hs)⟩

/-- Writing back what a slot holds changes no slot. -/
theorem set_slotAt_self (s : State) (i : Nat) : s.slots.set i (s.slotAt i) = s.slots := by
  by_cases h : i < s.slots.length
  · rw [slotAt_eq_getElem h, List.set_getElem_self]
  · exact List.set_eq_of_length_le (Nat.le_of_not_lt h)

/-- Settles O27: absorbing nothing leaves the record, so the slot is rewritten with what it held. -/
theorem zeroLengthUpdateIsNoOp : Obligations.ZeroLengthUpdateIsNoOp := by
  refine ⟨fun _ => absorb_nil, fun slot s hs => ⟨fun hp hinv => ?_, exec_update_lifecycle [] hs⟩⟩
  obtain ⟨-, -, -, hbuf⟩ := hinv
  rw [exec_update [] hs hp, absorb_nil hbuf, set_slotAt_self]
  rfl

/-- Settles O28: two absorptions are one, any number of them by induction, and UPDATE absorbs into its slot, which stays in
phase HASH. -/
theorem chunkingInvariance : Obligations.ChunkingInvariance := by
  refine ⟨absorb_absorb, foldl_absorb, fun slot x1 x2 s hs hp => ?_⟩
  have hslot (c : Slot) : (s.slots.set slot.toNat c).getD slot.toNat Slot.erased = c := slotAt_set_self c hs
  refine ⟨_, _, _, exec_update x1 hs hp, exec_update x2 ?_ ?_, exec_update (x1 ++ x2) hs hp, ?_⟩
  · simpa only [nctx_eq, List.length_set] using hs
  · rw [State.slotAt, hslot]
    exact hp
  · simp only [State.slotAt, hslot, List.set_set, absorb_absorb]

/-! ## The blocks a command compresses (R142, R159, R186, R263) -/

/-- How many padding blocks follow a message of `n` bytes (R152, R159). -/
def padCount (n : Nat) : Nat := if n % 64 ≤ 55 then 1 else 2

theorem padCount_mod (n : Nat) : padCount (n % 64) = padCount n := by rw [padCount, padCount, Nat.mod_mod]

theorem length_absorbBlocks (c : Slot) (x : List Byte) :
    (absorbBlocks c x).length = (pendingCount c + x.length) / 64 := by
  rw [absorbBlocks, length_wholeBlocks, List.length_append, length_pendingBytes]

theorem length_padBlocks (c : Slot) : (padBlocks c).length = padCount (pendingCount c) := by
  rw [padBlocks, padCount, Nat.mod_eq_of_lt (pendingCount_lt c)]
  by_cases h : pendingCount c < 56
  · rw [if_pos h, if_pos (Nat.le_of_lt_succ h), List.length_singleton]
  · rw [if_neg h, if_neg fun h' => h (Nat.lt_succ_of_le h')]
    rfl

/-- The blocks of a record that nothing is pending in: those of the data, then its padding. -/
theorem length_absorbBlocks_add_padBlocks {c : Slot} (h : pendingCount c = 0) (x : List Byte) :
    (absorbBlocks c x).length + (padBlocks (absorb c x)).length = x.length / 64 + padCount x.length := by
  rw [length_absorbBlocks, length_padBlocks, pendingCount_absorb, padCount_mod, h, Nat.zero_add]

theorem length_hashBlocks (m : List Byte) : (hashBlocks m).length = m.length / 64 + padCount m.length := by
  rw [hashBlocks, List.length_append, length_absorbBlocks_add_padBlocks pendingCount_initContext]

/-- The state after absorption and finalization is a fold over the blocks of both (R151, R158). -/
theorem finalState_absorb (c : Slot) (x : List Byte) :
    finalState (absorb c x) = cfAll c.v (absorbBlocks c x ++ padBlocks (absorb c x)) := by
  rw [finalState, absorb_v, cfAll_append]

/-- A digest is the fold over the blocks of its hash (R158). -/
theorem sm3_toList (m : List Byte) : (sm3 m).toList = stateBytes (cfAll iv (hashBlocks m)) := by
  rw [sm3, finalDigest_toList, finalState_absorb]
  rfl

/-! ### The key (R175) -/

/-- The blocks of a long key's hash; a key of up to 64 bytes is not hashed. -/
def keyBlocks (y : List Byte) : List Block := if 64 < y.length then hashBlocks y else []

theorem hmacInitBlocks_eq (y : List Byte) : hmacInitBlocks y = keyBlocks y ++ [innerPad y] := rfl

theorem length_keyBlocks (y : List Byte) :
    (keyBlocks y).length = if y.length ≤ 64 then 0 else y.length / 64 + padCount y.length := by
  rw [keyBlocks]
  by_cases h : y.length ≤ 64
  · rw [if_pos h, if_neg (Nat.not_lt.mpr h), List.length_nil]
  · rw [if_neg h, if_pos (Nat.lt_of_not_le h), length_hashBlocks]

/-- The normalized key: the key itself, or the digest folded over its blocks, zero-filled. -/
theorem normKey_toList (y : List Byte) :
    (normKey y).toList =
      if y.length ≤ 64 then y ++ List.replicate (64 - y.length) 0
      else stateBytes (cfAll iv (keyBlocks y)) ++ List.replicate 32 0 := by
  rw [normKey, keyBlocks]
  by_cases h : y.length ≤ 64
  · rw [if_pos h, if_neg (Nat.not_lt.mpr h)]
    exact blockOf_toList_of_length (by rw [List.length_append, length_rep]; omega)
  · rw [if_neg h, if_pos (Nat.lt_of_not_le h), if_pos (Nat.lt_of_not_le h), ← sm3_toList]
    exact blockOf_toList_of_length (by rw [List.length_append, length_sm3, length_rep])

/-! ### The outer hash (R177, R180) -/

theorem absorbBlocks_initContext_block (b : Block) : absorbBlocks initContext b.toList = [b] := by
  rw [absorbBlocks, pendingBytes_initContext, List.nil_append, wholeBlocks, Vector.length_toList,
    Nat.div_self (by decide), blocks, List.take_of_length_le b.length_toList.le, blocks, blockOf, padTo_toList_self]

/-- A record that has counted one block has nothing pending. -/
theorem pendingCount_of_n_eq_512 {c : Slot} (h : c.n = 512) : pendingCount c = 0 := by
  rw [pendingCount, h]
  rfl

theorem pendingCount_hmacContext (y : List Byte) : pendingCount (hmacContext y) = 0 := pendingCount_of_n_eq_512 rfl

/-- The padding of a record that holds the 32 bytes `d` behind its first block: 768 bits counted (R152). -/
theorem padBlocks_absorb_digest {c : Slot} (hn : c.n = 512) {d : List Byte} (hd : d.length = 32) :
    padBlocks (absorb c d) = [blockOf (d ++ [0x80] ++ rep 0 23 ++ toBe64 768)] := by
  have hzero := pendingCount_of_n_eq_512 hn
  have hcount : pendingCount (absorb c d) = 32 := by rw [pendingCount_absorb, hzero, hd]
  have hbytes : pendingBytes (absorb c d) = d := by
    rw [pendingBytes_absorb_of_short (by rw [hzero, hd]; decide), pendingBytes, hzero, List.take_zero, List.nil_append]
  have hbits : (absorb c d).n = 768 := by
    rw [absorb, hn, hd]
    rfl
  rw [padBlocks, hcount, if_pos (by decide), hbytes, hbits]

/-- The outer hash runs over two blocks: the outer pad key, then the padded inner digest. -/
theorem hashBlocks_block_append (b : Block) {d : List Byte} (hd : d.length = 32) :
    (hashBlocks (b.toList ++ d)).map Vector.toList =
      [b.toList, d ++ [0x80] ++ List.replicate 23 0 ++ toBe64 768] := by
  have hn : (absorb initContext b.toList).n = 512 := by rw [absorb_initContext_block]
  have hshort : absorbBlocks (absorb initContext b.toList) d = [] :=
    absorbBlocks_of_short (by rw [pendingCount_of_n_eq_512 hn, hd]; decide)
  have hlast : (d ++ [0x80] ++ rep 0 23 ++ toBe64 768).length = 64 := by
    simp only [List.length_append, hd, length_rep, length_toBe64, List.length_singleton]
  rw [hashBlocks, ← absorb_absorb, padBlocks_absorb_digest hn hd, absorbBlocks_append, absorbBlocks_initContext_block,
    hshort]
  simp only [List.append_nil, List.cons_append, List.nil_append, List.map_cons, List.map_nil,
    blockOf_toList_of_length hlast]
  rfl

theorem outerDigest_toList (c : Slot) :
    (outerDigest c).toList = stateBytes (cfAll iv (hashBlocks (c.okey.toList ++ stateBytes (finalState c)))) := by
  rw [outerDigest, absorb_absorb, ← sm3_toList, sm3]

/-- A record whose state is the fold of `bs` from `v` ends an HMAC over `bs`, its padding, and the two blocks of the outer
hash. -/
theorem outerFold_append_hmacFinalBlocks {v : HashState} {bs : List Block} {c : Slot} (h : c.v = cfAll v bs) :
    OuterFold v c.okey.toList (bs ++ hmacFinalBlocks c) (bs.length + (padBlocks c).length) (outerDigest c).toList := by
  have hassoc : bs ++ hmacFinalBlocks c =
      (bs ++ padBlocks c) ++ hashBlocks (c.okey.toList ++ stateBytes (finalState c)) := by
    rw [hmacFinalBlocks, List.append_assoc]
  have hinner : finalState c = cfAll v (bs ++ padBlocks c) := by rw [finalState, h, cfAll_append]
  rw [OuterFold, hassoc, ← List.length_append, List.drop_left, List.take_left, ← hinner]
  exact ⟨hashBlocks_block_append c.okey (length_stateBytes _), outerDigest_toList c⟩

theorem outerFold_hmacFinalBlocks (c : Slot) :
    OuterFold c.v c.okey.toList (hmacFinalBlocks c) (padCount (pendingCount c)) (outerDigest c).toList := by
  have h := outerFold_append_hmacFinalBlocks (cfAll_nil c.v).symm
  rwa [List.nil_append, List.length_nil, Nat.zero_add, length_padBlocks] at h

/-- The end of HMAC and HMAC_BUF: the inner pad block, the data and the padding fold to the inner digest (R181, R182). -/
theorem outerFold_hmacContext (x y : List Byte) :
    OuterFold iv (outerPad y).toList
      ([innerPad y] ++ absorbBlocks (hmacContext y) x ++ hmacFinalBlocks (absorb (hmacContext y) x))
      (1 + (x.length / 64 + padCount x.length)) (outerDigest (absorb (hmacContext y) x)).toList := by
  have hv : (absorb (hmacContext y) x).v = cfAll iv ([innerPad y] ++ absorbBlocks (hmacContext y) x) := rfl
  rw [← length_absorbBlocks_add_padBlocks (pendingCount_hmacContext y), ← Nat.add_assoc]
  have h := outerFold_append_hmacFinalBlocks hv
  rwa [List.length_append, List.length_singleton] at h

theorem length_hmacFinalBlocks (c : Slot) : (hmacFinalBlocks c).length = padCount (pendingCount c) + 2 := by
  rw [hmacFinalBlocks, List.length_append, length_padBlocks, length_hashBlocks, List.length_append, Vector.length_toList,
    length_stateBytes]
  rfl

/-- The blocks of HMAC and HMAC_BUF are those of HMAC_INIT, HMAC_UPDATE and HMAC_FINAL in turn (R181, R186). -/
theorem commandBlocks_hmac (slot : Byte) (x y : List Byte) (c : Slot) :
    commandBlocks (.hmac slot x y) c =
      hmacInitBlocks y ++ absorbBlocks (hmacContext y) x ++ hmacFinalBlocks (absorb (hmacContext y) x) := rfl

theorem take_hmacInitBlocks_hmac (slot : Byte) (x y : List Byte) (c : Slot) :
    (commandBlocks (.hmac slot x y) c).take (hmacInitBlocks y).length = hmacInitBlocks y := by
  rw [commandBlocks_hmac, List.append_assoc, List.take_left]

theorem drop_keyBlocks_hmac (slot : Byte) (x y : List Byte) (c : Slot) :
    (commandBlocks (.hmac slot x y) c).drop (keyBlocks y).length =
      [innerPad y] ++ absorbBlocks (hmacContext y) x ++ hmacFinalBlocks (absorb (hmacContext y) x) := by
  rw [commandBlocks_hmac, hmacInitBlocks_eq, List.append_assoc, List.append_assoc, List.drop_left, List.append_assoc]

theorem length_commandBlocks_hmac (slot : Byte) (x y : List Byte) (c : Slot) :
    (commandBlocks (.hmac slot x y) c).length =
      ((keyBlocks y).length + 1) + x.length / 64 + (padCount x.length + 2) := by
  have h := length_absorbBlocks_add_padBlocks (pendingCount_hmacContext y) x
  rw [length_padBlocks] at h
  rw [commandBlocks_hmac, hmacInitBlocks_eq, List.length_append, List.length_append, List.length_append,
    List.length_singleton, length_hmacFinalBlocks]
  omega

/-! ### What a command computes with its blocks -/

/-- What an admitted command emits. -/
theorem exec_emits {i : Instr} {s : State} (hadm : headerFault (instrOpcode i) (instrSlotByte i) s = none) :
    ∃ t : State, exec i s = .next t ∧
      t.rspOut = s.rspOut ++ commandResponse i (s.slotAt (instrSlotByte i).toNat) :=
  ⟨_, exec_eq_commandNext hadm, rfl⟩

/-- What an admitted command that names a slot leaves there. -/
theorem exec_leaves {i : Instr} {s : State} (hop : opcodeNamesSlot (instrOpcode i) = true)
    (hadm : headerFault (instrOpcode i) (instrSlotByte i) s = none) :
    ∃ t : State, exec i s = .next t ∧
      t.slotAt (instrSlotByte i).toNat = commandSlot i (s.slotAt (instrSlotByte i).toNat) :=
  ⟨_, exec_eq_commandNext hadm, commandNext_slotAt hop (of_headerFault_none hadm hop).1⟩

/-- Settles O30: a long key's blocks stand in front of the inner pad block, so cutting HMAC's blocks behind them leaves the
chain of the inner hash and the two blocks of the outer one; each response and slot state is the fold its lemma above says. -/
theorem compressionsPerCommand : Obligations.CompressionsPerCommand := by
  intro slot x y s c r hc hr
  subst hc hr
  intro finalCount keyCount dataCount hmacInit hmac key
  have hkeyCount : keyCount = (keyBlocks y).length := (length_keyBlocks y).symm
  have htake : hmacInit.take keyCount = keyBlocks y := hkeyCount ▸ List.take_left
  have hdrop : hmacInit.drop keyCount = [innerPad y] := hkeyCount ▸ List.drop_left
  have hkey : key = (normKey y).toList := by rw [normKey_toList, ← htake]
  have hopad : key.map (· ^^^ 0x5c) = (outerPad y).toList := by rw [hkey, outerPad, xorByte_toList]
  have hipad : key.map (· ^^^ 0x36) = (innerPad y).toList := by rw [hkey, innerPad, xorByte_toList]
  have houter : OuterFold iv (key.map (· ^^^ 0x5c)) (hmac.drop keyCount) (1 + dataCount)
      (outerDigest (absorb (hmacContext y) x)).toList := by
    rw [hopad, hkeyCount, drop_keyBlocks_hmac]
    exact outerFold_hmacContext x y
  have hinit : hmacInit.length = keyCount + 1 := by
    rw [hkeyCount]
    exact List.length_append
  have hprefix : hmac.take (keyCount + 1) = hmacInit := by
    rw [← hinit]
    exact take_hmacInitBlocks_hmac slot x y _
  refine ⟨⟨rfl, length_absorbBlocks _ x, length_padBlocks _, length_hashBlocks x, length_hashBlocks x, hinit,
    length_absorbBlocks _ x, length_hmacFinalBlocks _, ?_, rfl, hprefix⟩, fun hs hp => ⟨?_, ?_⟩, fun hs hp => ⟨?_, ?_⟩,
    fun hs => ⟨?_, ?_, ?_⟩, ?_, ?_⟩
  · exact hkeyCount ▸ length_commandBlocks_hmac slot x y _
  · obtain ⟨t, he, hslot⟩ := exec_leaves (i := .update slot x) rfl (headerFault_none_of_phase rfl hs hp)
    exact ⟨t, he, congrArg Slot.v hslot⟩
  · exact exec_emits (i := .final slot) (headerFault_none_of_phase rfl hs hp)
  · obtain ⟨t, he, hslot⟩ := exec_leaves (i := .hmacUpdate slot x) rfl (headerFault_none_of_phase rfl hs hp)
    exact ⟨t, he, congrArg Slot.v hslot⟩
  · obtain ⟨t, he, hout⟩ := exec_emits (i := .hmacFinal slot) (headerFault_none_of_phase rfl hs hp)
    exact ⟨t, _, he, hout, outerFold_hmacFinalBlocks _⟩
  · obtain ⟨t, he, hout⟩ := exec_emits (i := .hash slot x) (headerFault_none hs rfl)
    exact ⟨t, he, hout.trans (congrArg _ (sm3_toList x))⟩
  · obtain ⟨t, he, hslot⟩ := exec_leaves (i := .hmacInit slot y) rfl (headerFault_none hs rfl)
    refine ⟨t, he, ?_, ?_, ?_⟩
    · rw [hdrop, hipad]
      rfl
    · rw [hdrop]
      exact congrArg Slot.v hslot
    · rw [hopad]
      exact congrArg (·.okey.toList) hslot
  · obtain ⟨t, he, hout⟩ := exec_emits (i := .hmac slot x y) (headerFault_none hs rfl)
    exact ⟨t, _, he, hout, houter⟩
  · obtain ⟨t, he, hout⟩ := exec_emits (i := .buf x) (s := s) rfl
    exact ⟨t, he, hout.trans (congrArg _ (sm3_toList x))⟩
  · obtain ⟨t, he, hout⟩ := exec_emits (i := .hmacBuf x y) (s := s) rfl
    exact ⟨t, _, he, hout, houter⟩

end Sys2Proof.Proofs
end

section
/-! SUPPORT. The proofs of the statements on finalization (42_finalization.md): the padding as blocks cut from one byte string
(R152 to R154, R158), the digest (R155), and what FINAL does (R150), with each the obligations it settles. -/

namespace Sys2Proof.Proofs

open Sys2Proof.Machine Sys2Proof.Laws

/-! ## Padding (R152 to R154) -/

theorem padBlocks_of_short {c : Slot} (h : pendingCount c ≤ 55) :
    padBlocks c = [blockOf (pendingBytes c ++ [0x80] ++ rep 0 (55 - pendingCount c) ++ toBe64 c.n)] :=
  if_pos (Nat.lt_succ_of_le h)

theorem padBlocks_of_long {c : Slot} (h : 56 ≤ pendingCount c) :
    padBlocks c =
      [blockOf (pendingBytes c ++ [0x80] ++ rep 0 (63 - pendingCount c)), blockOf (rep 0 56 ++ toBe64 c.n)] :=
  if_neg (Nat.not_lt.mpr h)

/-! Each of the three byte strings that `padBlocks` makes a block of is 64 bytes long, so none is cut or filled up. -/

theorem length_shortPadding {c : Slot} (h : pendingCount c ≤ 55) :
    (pendingBytes c ++ [0x80] ++ rep 0 (55 - pendingCount c) ++ toBe64 c.n).length = 64 := by
  simp only [List.length_append, length_pendingBytes, length_rep, length_toBe64, List.length_singleton]
  omega

theorem length_firstLongPadding (c : Slot) :
    (pendingBytes c ++ [0x80] ++ rep 0 (63 - pendingCount c)).length = 64 := by
  have hr := pendingCount_lt c
  simp only [List.length_append, length_pendingBytes, length_rep, List.length_singleton]
  omega

theorem length_secondLongPadding (n : Counter) : (rep 0 56 ++ toBe64 n).length = 64 := by
  rw [List.length_append, length_rep, length_toBe64]

/-- Settles O31: in each case the bytes of a block are the 64 bytes it was made of. -/
theorem paddingBlockLayout : Obligations.PaddingBlockLayout := by
  intro c r hr
  obtain rfl : r = pendingCount c := hr
  constructor
  · intro h
    rw [padBlocks_of_short h, List.map_singleton, blockOf_toList_of_length (length_shortPadding h)]
    rfl
  · intro h
    rw [padBlocks_of_long h, List.map_cons, List.map_singleton, blockOf_toList_of_length (length_firstLongPadding c),
      blockOf_toList_of_length (length_secondLongPadding c.n)]
    rfl

/-- The number of zero bytes that padding puts behind the 0x80 of a message of `n` bytes: the least that leaves 8 bytes of a
block for the bit count. -/
def padZeros (n : Nat) : Nat := (119 - n % 64) % 64

theorem padZeros_lt (n : Nat) : padZeros n < 64 := Nat.mod_lt _ (by decide)

theorem add_padZeros_mod (n : Nat) : (n + padZeros n) % 64 = 55 := by
  rw [padZeros]
  omega

theorem padZeros_mod (n : Nat) : padZeros (n % 64) = padZeros n := by rw [padZeros, padZeros, Nat.mod_mod]

/-- The bytes that padding puts behind a message of `n` bytes whose bit count is `bits`. -/
def padTail (n : Nat) (bits : Counter) : List Byte := [0x80] ++ rep 0 (padZeros n) ++ toBe64 bits

theorem length_padTail (n : Nat) (bits : Counter) : (padTail n bits).length = padZeros n + 9 := by
  simp only [padTail, List.length_append, length_rep, length_toBe64, List.length_singleton]
  omega

/-- A message and its padding fill one block, or two, more than the message has whole blocks. -/
theorem add_padZeros_add_nine (n : Nat) : n + (padZeros n + 9) = 64 * (n / 64 + padCount n) := by
  rw [padZeros, padCount]
  split <;> omega

theorem wholeBlocks_of_length {p : List Byte} (h : p.length = 64) : wholeBlocks p = [blockOf p] := by
  rw [wholeBlocks, h, Nat.div_self (by decide), blocks, List.take_of_length_le h.le, blocks]

theorem wholeBlocks_append_of_length {p q : List Byte} (hp : p.length = 64) (hq : q.length = 64) :
    wholeBlocks (p ++ q) = [blockOf p, blockOf q] := by
  have hrest : leftover p = [] := by rw [← List.length_eq_zero_iff, length_leftover, hp]
  rw [wholeBlocks_append, wholeBlocks_of_length hp, hrest, List.nil_append, wholeBlocks_of_length hq]
  rfl

/-- The padding blocks are cut from the pending bytes and their padding as from one byte string: where the bit count does not
fit behind the 0x80, the zeros run over into a second block. -/
theorem padBlocks_eq_wholeBlocks (c : Slot) :
    padBlocks c = wholeBlocks (pendingBytes c ++ padTail (pendingCount c) c.n) := by
  have hr := pendingCount_lt c
  by_cases h : pendingCount c ≤ 55
  · have hzeros : padZeros (pendingCount c) = 55 - pendingCount c := by rw [padZeros]; omega
    rw [padBlocks_of_short h, ← wholeBlocks_of_length (length_shortPadding h), padTail, hzeros]
    simp only [List.append_assoc]
  · have hlong : 56 ≤ pendingCount c := Nat.lt_of_not_le h
    have hzeros : padZeros (pendingCount c) = (63 - pendingCount c) + 56 := by rw [padZeros]; omega
    have hsplit : rep 0 ((63 - pendingCount c) + 56) = rep 0 (63 - pendingCount c) ++ rep 0 56 :=
      List.replicate_add ..
    rw [padBlocks_of_long hlong, ← wholeBlocks_append_of_length (length_firstLongPadding c) (length_secondLongPadding c.n),
      padTail, hzeros, hsplit]
    simp only [List.append_assoc]

/-! ## SM3 as one fold (R158) -/

/-- The padded message `Pad(M)`. -/
def paddedMessage (m : List Byte) : List Byte := m ++ padTail m.length (BitVec.ofNat 64 (8 * m.length))

theorem length_paddedMessage (m : List Byte) :
    (paddedMessage m).length = 64 * (m.length / 64 + padCount m.length) := by
  rw [paddedMessage, List.length_append, length_padTail, add_padZeros_add_nine]

/-- The blocks of a hash are those of the padded message: its padding is cut where its last whole block ends. -/
theorem hashBlocks_eq_wholeBlocks (m : List Byte) : hashBlocks m = wholeBlocks (paddedMessage m) := by
  have hbits : (absorb initContext m).n = BitVec.ofNat 64 (8 * m.length) := BitVec.zero_add _
  have hcount : pendingCount (absorb initContext m) = m.length % 64 := by
    rw [pendingCount_absorb, pendingCount_initContext, Nat.zero_add]
  have htail : padTail (m.length % 64) (BitVec.ofNat 64 (8 * m.length)) =
      padTail m.length (BitVec.ofNat 64 (8 * m.length)) := by rw [padTail, padTail, padZeros_mod]
  rw [hashBlocks, absorbBlocks, padBlocks_eq_wholeBlocks, pendingBytes_absorb, hbits, hcount, htail,
    pendingBytes_initContext, List.nil_append, paddedMessage, wholeBlocks_append m]

/-- Settles O32: a digest is the fold over the blocks of its hash (`sm3_toList`), and those are cut from the padded message. -/
theorem sm3IsFoldOverPaddedMessage : Obligations.Sm3IsFoldOverPaddedMessage := by
  intro m _
  refine ⟨padZeros m.length, padZeros_lt _, add_padZeros_mod _, paddedMessage m, ?_, length_paddedMessage m, ?_⟩
  · simp only [paddedMessage, padTail, rep, List.append_assoc]
  · rw [sm3_toList, hashBlocks_eq_wholeBlocks, wholeBlocks, cfAll_blocks]

/-! ## The digest and FINAL (R150, R155) -/

/-- The encodings of a sequence of words stand one behind the other, four bytes each. -/
theorem take_drop_flatMap_toBe32 {ws : List Word} {i : Nat} (h : i < ws.length) :
    ((ws.flatMap toBe32).drop (4 * i)).take 4 = toBe32 (ws.getD i 0) := by
  induction ws generalizing i with
  | nil => cases h
  | cons w ws ih =>
    rw [List.flatMap_cons]
    cases i with
    | zero => exact List.take_left' (length_toBe32 w)
    | succ i =>
      rw [List.getD_cons_succ, ← ih (Nat.lt_of_succ_lt_succ h), Nat.mul_succ, Nat.add_comm, ← List.drop_drop,
        List.drop_left' (length_toBe32 w)]

/-- Settles O35: the digest is the encoding of the state's eight words. -/
theorem digestWordOrder : Obligations.DigestWordOrder := by
  intro c
  refine ⟨Vector.length_toList, fun i hi => ?_⟩
  rw [finalDigest_toList]
  exact take_drop_flatMap_toBe32 (ws := stateWords (finalState c)) hi

/-- A command that names a slot: its slot rewritten, SCR erased, its packet consumed, its response emitted. -/
theorem exec_of_namesSlot {i : Instr} {s : State} (hop : opcodeNamesSlot (instrOpcode i) = true)
    (hadm : headerFault (instrOpcode i) (instrSlotByte i) s = none) :
    exec i s = .next { s with
      slots := s.slots.set (instrSlotByte i).toNat (commandSlot i (s.slotAt (instrSlotByte i).toNat))
      scr := Scr.erased
      cmdIn := s.cmdIn.drop (packetLength i)
      rspOut := s.rspOut ++ commandResponse i (s.slotAt (instrSlotByte i).toNat) } := by
  rw [exec_eq_commandNext hadm, commandNext, commandSlots, if_pos hop]

/-- Settles O18: admitted, in the wrong phase, or on no slot. -/
theorem finalResult : Obligations.FinalResult :=
  fun _ _ => ⟨fun hs hp => exec_of_namesSlot rfl (headerFault_none_of_phase rfl hs hp),
    fun hs hp => exec_faulted (headerFault_lifecycle_of_phase rfl rfl hs hp),
    fun hs => exec_faulted (headerFault_badSlot rfl hs)⟩

end Sys2Proof.Proofs
end

section
/-! SUPPORT. The proofs of the statements on the one-shot commands (43_oneshot.md): what HASH and BUF do (R165, R166), then
runs over commands that all name one slot, of which HASH and its streaming form are two (R167). -/

namespace Sys2Proof.Proofs

open Sys2Proof.Machine Sys2Proof.Laws

/-! ## HASH and BUF (R165, R166) -/

/-- Settles O19: HASH is admitted in every phase of a slot that exists. -/
theorem hashResult : Obligations.HashResult :=
  fun _ _ _ => ⟨fun hs => exec_of_namesSlot rfl (headerFault_none hs rfl),
    fun hs => exec_faulted (headerFault_badSlot rfl hs)⟩

/-- Settles O20: BUF names no slot, so its header has no fault to raise and no slot is rewritten. -/
theorem bufResult : Obligations.BufResult :=
  fun x s => exec_eq_commandNext (i := .buf x) (headerFault_noSlot 0 s rfl)

/-! ## Commands one after the other on one slot -/

/-- What commands on one slot make of `s`, CMD_IN apart: the slot holds `c`, SCR is erased, `out` has been emitted. -/
def afterSlotRun (s : State) (slot : Byte) (c : Slot) (out : List Byte) : State :=
  { s with slots := s.slots.set slot.toNat c, scr := Scr.erased, rspOut := s.rspOut ++ out }

theorem slotAt_afterSlotRun {s : State} {slot : Byte} (hs : slot.toNat < s.nctx) (c : Slot) (out : List Byte) :
    (afterSlotRun s slot c out).slotAt slot.toNat = c := slotAt_set_self c hs

theorem nctx_afterSlotRun (s : State) (slot : Byte) (c : Slot) (out : List Byte) :
    (afterSlotRun s slot c out).nctx = s.nctx := List.length_set

theorem afterSlotRun_afterSlotRun (s : State) (slot : Byte) (c d : Slot) (out out' : List Byte) :
    afterSlotRun (afterSlotRun s slot c out) slot d out' = afterSlotRun s slot d (out ++ out') := by
  simp only [afterSlotRun, List.set_set, List.append_assoc]

theorem packets_cons_append (i : Instr) (is : List Instr) (rest : List Byte) :
    packets (i :: is) ++ rest = encode i ++ (packets is ++ rest) := by
  rw [packets, List.flatMap_cons, List.append_assoc, packets]

/-- A run over the packet of a command that names `slot` and is allowed in its phase goes on behind that packet, the slot
rewritten and the command's response emitted. -/
theorem runOn_encode_of_namesSlot {i : Instr} {s : State} {slot : Byte} {c : Slot} (n : Nat) (rest : List Byte)
    (hop : opcodeNamesSlot (instrOpcode i) = true) (hslot : instrSlotByte i = slot) (hw : WellFormed i)
    (hh : s.halted = false) (hs : slot.toNat < s.nctx) (hc : s.slotAt slot.toNat = c)
    (hp : phaseAllows (instrOpcode i) c.phase = true) :
    runOn (n + 1) s (encode i ++ rest) = runOn n (afterSlotRun s slot (commandSlot i c) (commandResponse i c)) rest := by
  subst hslot hc
  have hslots : commandSlots i s =
      s.slots.set (instrSlotByte i).toNat (commandSlot i (s.slotAt (instrSlotByte i).toNat)) := if_pos hop
  rw [runOn_encode n rest hh hw (headerFault_none hs hp), runOn, commandNext, hslots]
  rfl

/-- The same after other commands on that slot. -/
theorem runOn_encode_afterSlotRun {i : Instr} {s : State} {slot : Byte} {c : Slot} {out : List Byte} (n : Nat)
    (rest : List Byte) (hop : opcodeNamesSlot (instrOpcode i) = true) (hslot : instrSlotByte i = slot) (hw : WellFormed i)
    (hh : s.halted = false) (hs : slot.toNat < s.nctx) (hp : phaseAllows (instrOpcode i) c.phase = true) :
    runOn (n + 1) (afterSlotRun s slot c out) (encode i ++ rest) =
      runOn n (afterSlotRun s slot (commandSlot i c) (out ++ commandResponse i c)) rest := by
  have hs' : slot.toNat < (afterSlotRun s slot c out).nctx := (nctx_afterSlotRun s slot c out).symm ▸ hs
  have hc : (afterSlotRun s slot c out).slotAt slot.toNat = c := slotAt_afterSlotRun hs c out
  have hh' : (afterSlotRun s slot c out).halted = false := hh
  rw [runOn_encode_of_namesSlot n rest hop hslot hw hh' hs' hc hp, afterSlotRun_afterSlotRun]

/-! ## HASH, and INIT, UPDATE by pieces and FINAL (R167) -/

/-- A run over one UPDATE for each piece, on a slot in phase HASH: the pieces are absorbed in turn (R133). -/
theorem runOn_updates {s : State} {slot : Byte} {c : Slot} {pieces : List (List Byte)} (n : Nat) (rest : List Byte)
    (hw : ∀ x ∈ pieces, lengthFits x) (hh : s.halted = false) (hs : slot.toNat < s.nctx) (hp : c.phase = .hash) :
    runOn (pieces.length + n) (afterSlotRun s slot c []) (packets (pieces.map (.update slot)) ++ rest) =
      runOn n (afterSlotRun s slot (pieces.foldl absorb c) []) rest := by
  induction pieces generalizing c with
  | nil =>
    rw [List.length_nil, Nat.zero_add]
    rfl
  | cons x pieces ih =>
    obtain ⟨hx, hpieces⟩ := List.forall_mem_cons.mp hw
    have hallowed : phaseAllows .update c.phase = true := (phaseAllows_iff rfl _).mpr hp
    rw [List.map_cons, packets_cons_append, List.length_cons, Nat.add_right_comm]
    exact (runOn_encode_afterSlotRun (i := .update slot x) _ _ rfl rfl hx hh hs hallowed).trans (ih hpieces hp)

/-- HASH in one step: whatever the slot holds, it ends erased, and the digest is emitted (R165). -/
theorem runOn_hash {s : State} {slot : Byte} {x : List Byte} (rest : List Byte) (hx : lengthFits x)
    (hh : s.halted = false) (hs : slot.toNat < s.nctx) :
    runOn 1 s (encode (.hash slot x) ++ rest) = runOn 0 (afterSlotRun s slot Slot.erased (sm3 x).toList) rest :=
  runOn_encode_of_namesSlot (i := .hash slot x) 0 rest rfl rfl hx hh hs rfl rfl

/-- The streaming form of HASH: the pieces are absorbed from a fresh context as one message (R140), whose digest FINAL
emits. -/
theorem runOn_hash_streaming {s : State} {slot : Byte} {pieces : List (List Byte)} (rest : List Byte)
    (hw : ∀ x ∈ pieces, lengthFits x) (hh : s.halted = false) (hs : slot.toNat < s.nctx) :
    runOn (pieces.length + 2) s
        (packets ([Instr.init slot] ++ pieces.map (Instr.update slot) ++ [Instr.final slot]) ++ rest) =
      runOn 0 (afterSlotRun s slot Slot.erased (sm3 pieces.flatten).toList) rest := by
  have hpackets : packets ([Instr.init slot] ++ pieces.map (Instr.update slot) ++ [Instr.final slot]) ++ rest =
      encode (.init slot) ++ (packets (pieces.map (Instr.update slot)) ++ (encode (.final slot) ++ rest)) := by
    simp [packets]
  have hallowed : phaseAllows .final (absorb initContext pieces.flatten).phase = true := (phaseAllows_iff rfl _).mpr rfl
  have hinit := runOn_encode_of_namesSlot (i := .init slot) (pieces.length + 1)
    (packets (pieces.map (Instr.update slot)) ++ (encode (.final slot) ++ rest)) rfl rfl trivial hh hs rfl rfl
  have hupdates := runOn_updates (c := initContext) 1 (encode (.final slot) ++ rest) hw hh hs rfl
  have hfinal := runOn_encode_afterSlotRun (i := .final slot) (out := []) 0 rest rfl rfl trivial hh hs hallowed
  rw [foldl_absorb_initContext] at hupdates
  rw [List.nil_append, commandResponse] at hfinal
  rw [hpackets, sm3, finalDigest_toList]
  exact (hinit.trans hupdates).trans hfinal

/-- Settles O58: both runs leave the slot erased and emit the digest of the whole message; BUF emits it too. -/
theorem hashEqualsStreaming : Obligations.HashEqualsStreaming := by
  intro s slot pieces rest hh hs hlen
  have hw : ∀ x ∈ pieces, lengthFits x :=
    fun x hx => (List.sublist_flatten_of_mem hx).length_le.trans_lt hlen
  have hbuf := runOn_encode (i := .buf pieces.flatten) 0 rest hh hlen (headerFault_noSlot 0 s rfl)
  exact ⟨_, runOn_hash rest hlen hh hs, runOn_hash_streaming rest hw hh hs, _, hbuf, rfl, rfl⟩

end Sys2Proof.Proofs
end

section
/-! SUPPORT. The proofs of the statements on HMAC (44_hmac.md): runs over commands that keep the phase of their slot, the
key normalizer (R175, R183), the digests the commands stage as HMAC-SM3 (R177), what the five commands do (R178 to R182),
and HMAC as a run of three of them (R181). -/

namespace Sys2Proof.Proofs

open Sys2Proof.Machine Sys2Proof.Laws

/-! ## Commands that keep the phase of their slot -/

/-- A command on `slot` that runs in phase `p`, leaves the slot in that phase and emits nothing. -/
def QuietIn (slot : Byte) (p : Phase) (i : Instr) : Prop :=
  WellFormed i ∧ opcodeNamesSlot (instrOpcode i) = true ∧ instrSlotByte i = slot ∧
    phaseAllows (instrOpcode i) p = true ∧ (∀ c : Slot, c.phase = p → (commandSlot i c).phase = p) ∧
    ∀ c : Slot, commandResponse i c = []

/-- A run over quiet commands rewrites their slot once for each. -/
theorem runOn_quiet {s : State} {slot : Byte} {p : Phase} {c : Slot} {is : List Instr} (n : Nat) (rest : List Byte)
    (hq : ∀ i ∈ is, QuietIn slot p i) (hh : s.halted = false) (hs : slot.toNat < s.nctx) (hp : c.phase = p) :
    runOn (is.length + n) (afterSlotRun s slot c []) (packets is ++ rest) =
      runOn n (afterSlotRun s slot (is.foldl (fun c i => commandSlot i c) c) []) rest := by
  induction is generalizing c with
  | nil =>
    rw [List.length_nil, Nat.zero_add]
    rfl
  | cons i is ih =>
    obtain ⟨hi, his⟩ := List.forall_mem_cons.mp hq
    obtain ⟨hw, hop, hslot, hallowed, hphase, hsilent⟩ := hi
    rw [packets_cons_append, List.length_cons, Nat.add_right_comm,
      runOn_encode_afterSlotRun _ _ hop hslot hw hh hs (hp ▸ hallowed), hsilent, List.append_nil,
      ih his (hphase c hp), List.foldl_cons]

/-! ## The key (R175, R183) -/

/-- A key of up to 64 bytes is its own normalized key, zero-filled. -/
theorem normKey_of_short {y : List Byte} (h : y.length ≤ 64) : normKey y = blockOf y := by
  rw [normKey, if_neg (Nat.not_lt.mpr h), blockOf_append_rep (by omega)]

/-- A longer key is normalized as its digest is. -/
theorem normKey_of_long {y : List Byte} (h : 64 < y.length) : normKey y = normKey (sm3 y).toList := by
  have hlen := length_sm3 y
  rw [normKey_of_short (y := (sm3 y).toList) (by omega), normKey, if_pos h, blockOf_append_rep (by omega)]

/-- Zero bytes behind a key are lost where the key still fits a block. -/
theorem normKey_append_zeros {y : List Byte} {j : Nat} (h : y.length + j ≤ 64) :
    normKey (y ++ List.replicate j 0) = normKey y := by
  rw [normKey_of_short (y := y ++ List.replicate j 0) (by simpa using h), normKey_of_short (by omega)]
  exact blockOf_append_rep h

/-- The key enters a MAC through its normalized form alone. -/
theorem hmacSm3_congr {y y' : List Byte} (h : normKey y = normKey y') (m : List Byte) : hmacSm3 y m = hmacSm3 y' m := by
  simp only [hmacSm3, outerPad, innerPad, h]

/-- Settles O36: keys that collide are those of one normalized key. -/
theorem keyNormalizationBoundary : Obligations.KeyNormalizationBoundary := by
  refine fun y => ⟨fun h => ?_, fun h => ?_, fun j m h => hmacSm3_congr (normKey_append_zeros h) m,
    fun m h => hmacSm3_congr (normKey_of_long h) m⟩
  · rw [normKey_toList, if_pos h]
  · rw [normKey_of_long h, normKey_toList, length_sm3]
    rfl

/-! ## The digests of the commands as HMAC-SM3 (R177) -/

/-- The outer hash absorbs the pad key and the inner digest as one message. -/
theorem outerDigest_eq_sm3 (c : Slot) : outerDigest c = sm3 (c.okey.toList ++ stateBytes (finalState c)) := by
  rw [outerDigest, absorb_absorb, sm3]

/-- The record HMAC_INIT leaves goes on as the hash of a message that begins with the inner pad block. -/
theorem finalDigest_absorb_hmacContext (x y : List Byte) :
    finalDigest (absorb (hmacContext y) x) = sm3 ((innerPad y).toList ++ x) := by
  rw [← finalDigest_innerPad, absorb_absorb, sm3]

/-- HMAC_INIT, absorption of the data and HMAC_FINAL compute the MAC. -/
theorem outerDigest_absorb_hmacContext (x y : List Byte) : outerDigest (absorb (hmacContext y) x) = hmacSm3 y x := by
  have hokey : (absorb (hmacContext y) x).okey = outerPad y := absorb_okey _ x
  rw [outerDigest_eq_sm3, hokey, ← finalDigest_toList, finalDigest_absorb_hmacContext, hmacSm3]

/-! ## The five commands (R178 to R182) -/

/-- Settles O21: HMAC_INIT is admitted on every slot that exists. -/
theorem hmacInitResult : Obligations.HmacInitResult :=
  fun _ _ _ => ⟨fun hs => exec_of_silent rfl (headerFault_none hs rfl) rfl,
    fun hs => exec_faulted (headerFault_badSlot rfl hs)⟩

/-- Settles O22: admitted, in the wrong phase, or on no slot. -/
theorem hmacUpdateResult : Obligations.HmacUpdateResult :=
  fun _ _ _ => ⟨fun hs hp => exec_of_silent rfl (headerFault_none_of_phase rfl hs hp) rfl,
    fun hs hp => exec_faulted (headerFault_lifecycle_of_phase rfl rfl hs hp),
    fun hs => exec_faulted (headerFault_badSlot rfl hs)⟩

/-- Settles O23: the response is the outer hash, over one message. -/
theorem hmacFinalResult : Obligations.HmacFinalResult := by
  refine fun slot s => ⟨fun hs hp => ?_, fun hs hp => exec_faulted (headerFault_lifecycle_of_phase rfl rfl hs hp),
    fun hs => exec_faulted (headerFault_badSlot rfl hs)⟩
  rw [← outerDigest_eq_sm3]
  exact exec_of_namesSlot (i := .hmacFinal slot) rfl (headerFault_none_of_phase rfl hs hp)

/-- Settles O24: HMAC is admitted on every slot that exists, and its response is the MAC. -/
theorem hmacResult : Obligations.HmacResult := by
  refine fun slot x y s => ⟨fun hs => ?_, fun hs => exec_faulted (headerFault_badSlot rfl hs)⟩
  have hexec := exec_of_namesSlot (i := .hmac slot x y) rfl (headerFault_none hs rfl)
  rw [commandResponse, outerDigest_absorb_hmacContext] at hexec
  exact hexec

/-- Settles O25: HMAC_BUF names no slot, so its header has no fault to raise and no slot is rewritten. -/
theorem hmacBufResult : Obligations.HmacBufResult := by
  intro x y s
  have hexec := exec_eq_commandNext (i := .hmacBuf x y) (headerFault_noSlot 0 s rfl)
  rw [commandNext, commandResponse, outerDigest_absorb_hmacContext] at hexec
  exact hexec

/-! ## HMAC, and HMAC_INIT, HMAC_UPDATE by pieces and HMAC_FINAL (R181) -/

theorem quietIn_hmacUpdate {x : List Byte} (slot : Byte) (hx : lengthFits x) : QuietIn slot .hmac (.hmacUpdate slot x) :=
  ⟨hx, rfl, rfl, rfl, fun _ hp => hp, fun _ => rfl⟩

/-- After HMAC_INIT no first piece is needed: absorbing nothing changes nothing there. -/
theorem foldl_absorb_hmacContext (y : List Byte) (pieces : List (List Byte)) :
    pieces.foldl absorb (hmacContext y) = absorb (hmacContext y) pieces.flatten := by
  obtain ⟨-, -, -, hbuf⟩ := slotInv_hmacContext y
  cases pieces with
  | nil => exact (absorb_nil hbuf).symm
  | cons x pieces => exact foldl_absorb _ x pieces

/-- A run over one HMAC_UPDATE for each piece, behind HMAC_INIT: the pieces are absorbed as one message (R140, R179). -/
theorem runOn_hmacUpdates {s : State} {slot : Byte} {pieces : List (List Byte)} (y : List Byte) (n : Nat)
    (rest : List Byte) (hw : ∀ x ∈ pieces, lengthFits x) (hh : s.halted = false) (hs : slot.toNat < s.nctx) :
    runOn (pieces.length + n) (afterSlotRun s slot (hmacContext y) [])
        (packets (pieces.map (.hmacUpdate slot)) ++ rest) =
      runOn n (afterSlotRun s slot (absorb (hmacContext y) pieces.flatten) []) rest := by
  have hq : ∀ i ∈ pieces.map (Instr.hmacUpdate slot), QuietIn slot .hmac i :=
    List.forall_mem_map.mpr fun x hx => quietIn_hmacUpdate slot (hw x hx)
  have hrun := runOn_quiet (c := hmacContext y) n rest hq hh hs rfl
  rw [List.length_map, List.foldl_map] at hrun
  rw [hrun, ← foldl_absorb_hmacContext]
  rfl

/-- HMAC in one step: whatever the slot holds, it ends erased, and the MAC is emitted (R181). -/
theorem runOn_hmac {s : State} {slot : Byte} {x y : List Byte} (rest : List Byte) (hx : lengthFits x) (hy : lengthFits y)
    (hh : s.halted = false) (hs : slot.toNat < s.nctx) :
    runOn 1 s (encode (.hmac slot x y) ++ rest) = runOn 0 (afterSlotRun s slot Slot.erased (hmacSm3 y x).toList) rest := by
  have hrun := runOn_encode_of_namesSlot (i := .hmac slot x y) 0 rest rfl rfl ⟨hx, hy⟩ hh hs rfl rfl
  rwa [commandResponse, outerDigest_absorb_hmacContext] at hrun

/-- The streaming form of HMAC: the pieces are absorbed behind the inner pad block, and HMAC_FINAL emits the MAC of the whole
message. -/
theorem runOn_hmac_streaming {s : State} {slot : Byte} {pieces : List (List Byte)} {y : List Byte} (rest : List Byte)
    (hw : ∀ x ∈ pieces, lengthFits x) (hy : lengthFits y) (hh : s.halted = false) (hs : slot.toNat < s.nctx) :
    runOn (pieces.length + 2) s
        (packets ([Instr.hmacInit slot y] ++ pieces.map (Instr.hmacUpdate slot) ++ [Instr.hmacFinal slot]) ++ rest) =
      runOn 0 (afterSlotRun s slot Slot.erased (hmacSm3 y pieces.flatten).toList) rest := by
  have hpackets : packets ([Instr.hmacInit slot y] ++ pieces.map (Instr.hmacUpdate slot) ++ [Instr.hmacFinal slot]) ++ rest =
      encode (.hmacInit slot y) ++
        (packets (pieces.map (Instr.hmacUpdate slot)) ++ (encode (.hmacFinal slot) ++ rest)) := by
    simp [packets]
  have hinit := runOn_encode_of_namesSlot (i := .hmacInit slot y) (pieces.length + 1)
    (packets (pieces.map (Instr.hmacUpdate slot)) ++ (encode (.hmacFinal slot) ++ rest)) rfl rfl hy hh hs rfl rfl
  have hupdates := runOn_hmacUpdates y 1 (encode (.hmacFinal slot) ++ rest) hw hh hs
  have hfinal := runOn_encode_afterSlotRun (i := .hmacFinal slot) (c := absorb (hmacContext y) pieces.flatten) (out := []) 0
    rest rfl rfl trivial hh hs rfl
  rw [List.nil_append, commandResponse, outerDigest_absorb_hmacContext] at hfinal
  rw [hpackets]
  exact (hinit.trans hupdates).trans hfinal

/-- Settles O59: both runs leave the slot erased and emit the MAC of the whole message. -/
theorem hmacEqualsStreaming : Obligations.HmacEqualsStreaming := by
  intro s slot pieces key rest hh hs hlen hkey
  have hw : ∀ x ∈ pieces, lengthFits x :=
    fun x hx => (List.sublist_flatten_of_mem hx).length_le.trans_lt hlen
  exact ⟨_, runOn_hmac rest hlen hkey hh hs, runOn_hmac_streaming rest hw hkey hh hs⟩

end Sys2Proof.Proofs
end

section
/-! SUPPORT. The proofs of the statements on erasure (45_erasure.md): SCR after every step (R203, R205), and the slot
image after the four finalizing commands (R204). -/

namespace Sys2Proof.Proofs

open Sys2Proof.Machine Sys2Proof.Laws

/-- Settles O49: a step runs an admitted command or takes a fault, and each of the two ends with SCR erased. -/
theorem scratchErasedAfterEveryStep : Obligations.ScratchErasedAfterEveryStep := by
  intro s t h
  obtain ⟨-, ⟨i, _, _, _, _, rfl⟩ | ⟨c, h0, h1, _, _, rfl⟩⟩ := step_runs_or_raises h
  · rfl
  · exact raiseFault_scr c h0 h1 s

/-- The four commands of R204, after which nothing of the message is left in the slot. -/
def finalizingOpcodes : List Opcode := [.final, .hash, .hmacFinal, .hmac]

theorem opcodeNamesSlot_of_finalizing : ∀ op ∈ finalizingOpcodes, opcodeNamesSlot op = true := by decide

theorem commandSlot_of_finalizing {i : Instr} (h : instrOpcode i ∈ finalizingOpcodes) (c : Slot) :
    commandSlot i c = Slot.erased := by
  cases i with
  | final | hash | hmacFinal | hmac => rfl
  | init | update | buf | hmacInit | hmacUpdate | hmacBuf => simp [instrOpcode, finalizingOpcodes] at h

theorem slotImage_erased : slotImage Slot.erased = List.replicate 176 0 := by
  have hv : stateBytes HashState.zero = List.replicate 32 0 := rfl
  have hn : toBe64 0 = List.replicate 8 0 := rfl
  have hphase : [phaseByte .idle] ++ rep 0 7 = List.replicate 8 0 := rfl
  rw [slotImage, Slot.erased, List.append_assoc, hphase, hv, hn]
  simp only [Vector.toList_replicate, List.replicate_append_replicate]

/-- Settles O50: an admitted finalizing command names a slot that exists and leaves it erased. -/
theorem imageIsZeroAfterFinalizing : Obligations.ImageIsZeroAfterFinalizing := by
  intro i s hi hadm
  have hop := opcodeNamesSlot_of_finalizing _ hi
  refine ⟨_, exec_of_namesSlot hop hadm, ?_⟩
  rw [← slotImage_erased, ← commandSlot_of_finalizing hi (s.slotAt (instrSlotByte i).toNat)]
  simp only [State.image, List.getElem?_set_self (of_headerFault_none hadm hop).1, Option.map_some]

end Sys2Proof.Proofs
end

section
/-! SUPPORT. The proofs of the statements on exceptions (60_exceptions.md): the halt (R225, R226), LifecycleFault (R221,
R224), and the lifecycle table of a slot (R235). -/

namespace Sys2Proof.Proofs

open Sys2Proof.Machine Sys2Proof.Laws

/-! ## The halt (R225, R226) -/

theorem step_of_halted {s : State} (h : s.halted = true) : step s = .fault .halted := by rw [step, fetch_halted h]

/-- Settles O6: whether the engine is halted is read from STATUS, which bytes on CMD_IN do not change. -/
theorem haltedEngineHasNoStep : Obligations.HaltedEngineHasNoStep :=
  fun _ _ h => ⟨step_of_halted h, step_of_halted h⟩

/-- Settles O15: a halted engine does not move by itself, and of the host's three actions reset alone writes more than
CMD_IN. -/
theorem onlyResetLeavesTheHalt : Obligations.OnlyResetLeavesTheHalt := by
  intro s t hh hm
  cases hm with
  | engine _ hstep =>
    rw [step_of_halted hh] at hstep
    cases hstep
  | host a =>
    cases a with
    | send bytes => exact .inr ⟨hh, rfl, rfl, rfl, bytes, rfl⟩
    | writeReg n v => exact .inr ⟨hh, rfl, rfl, rfl, [], (List.append_nil _).symm⟩
    | reset => exact .inl rfl

/-! ## LifecycleFault (R221, R224) -/

theorem statusWord_lifecycleFault (h0 h1 : Byte) : statusWord .lifecycleFault h0 h1 =
    0x00000001 ||| (3 <<< 4) ||| (h1.zeroExtend 32 <<< 8) ||| (h0.zeroExtend 32 <<< 16) := rfl

/-- The OP bytes of the four commands that require a phase of their slot (R221). -/
theorem exists_usingOpcode {h0 : Byte} {p : Phase}
    (h : ((h0 = 0x02 ∨ h0 = 0x03) ∧ p ≠ .hash) ∨ ((h0 = 0x12 ∨ h0 = 0x13) ∧ p ≠ .hmac)) :
    ∃ op q, opcodeByte op = h0 ∧ opcodeNamesSlot op = true ∧ requiredPhase op = some q ∧ p ≠ q := by
  obtain ⟨rfl | rfl, hp⟩ | ⟨rfl | rfl, hp⟩ := h
  · exact ⟨.update, .hash, rfl, rfl, rfl, hp⟩
  · exact ⟨.final, .hash, rfl, rfl, rfl, hp⟩
  · exact ⟨.hmacUpdate, .hmac, rfl, rfl, rfl, hp⟩
  · exact ⟨.hmacFinal, .hmac, rfl, rfl, rfl, hp⟩

/-- Settles O10: the header is legal and its slot exists, so the phase is what it is tested for next. -/
theorem lifecycleFaultIsTaken : Obligations.LifecycleFaultIsTaken := by
  intro s h0 h1 rest hh hb hs hphase
  obtain ⟨op, q, rfl, hop, hq, hp⟩ := exists_usingOpcode hphase
  have hd : decodeHeader s.cmdIn = .command op h1 rest := by
    rw [hb]
    exact decodeHeader_command rest (by simp [hop])
  rw [step_of_headerFault hh hd (headerFault_lifecycle_of_phase hop hq hs hp), State.raiseFault,
    statusWord_lifecycleFault]

/-! ## The lifecycle table (R235) -/

/-- Where a phase is required and the slot is in another one, the table has LifecycleFault. -/
theorem lifecycleTable_of_forbidden {op : Opcode} {p : Phase} (h : phaseAllows op p = false) :
    lifecycleTable op p = none := by
  cases op with
  | init | hash | buf | hmacInit | hmac | hmacBuf => cases h
  | update | final =>
    cases p with
    | hash => cases h
    | idle | hmac => rfl
  | hmacUpdate | hmacFinal =>
    cases p with
    | hmac => cases h
    | idle | hash => rfl

/-- Where the command is allowed, the table has the phase of the record the command leaves. -/
theorem lifecycleTable_of_allowed {i : Instr} {c : Slot} (h : phaseAllows (instrOpcode i) c.phase = true) :
    lifecycleTable (instrOpcode i) c.phase = some (commandSlot i c).phase := by
  cases i with
  | init | hash | buf | hmacInit | hmac | hmacBuf => rfl
  | update | final | hmacUpdate | hmacFinal =>
    have hp := (phaseAllows_iff rfl _).mp h
    simp only [hp, commandSlot, absorb_phase]
    rfl

/-- An allowed slot command emits a digest exactly where it leaves its slot IDLE. -/
theorem length_commandResponse_of_allowed {i : Instr} {c : Slot} (hop : opcodeNamesSlot (instrOpcode i) = true)
    (h : phaseAllows (instrOpcode i) c.phase = true) :
    (commandResponse i c).length = if (commandSlot i c).phase = .idle then 32 else 0 := by
  cases i with
  | init | hmacInit => rfl
  | final | hash | hmacFinal | hmac => exact length_commandResponse _ c
  | update | hmacUpdate =>
    have hp := (phaseAllows_iff rfl _).mp h
    simp only [commandSlot, absorb_phase, hp]
    rfl
  | buf | hmacBuf => cases hop

theorem commandSlots_of_noSlot {i : Instr} (s : State) (h : opcodeNamesSlot (instrOpcode i) = false) :
    commandSlots i s = s.slots := by
  rw [commandSlots, h]
  rfl

/-- Settles O55: a cell of the table is a fault where the header check forbids the command, else the phase of the record the
command leaves. -/
theorem lifecycleTableHolds : Obligations.LifecycleTableHolds := by
  refine ⟨fun i s hop hs => ?_, fun i s hop => ?_, fun s c hc => ?_⟩
  · cases hallow : phaseAllows (instrOpcode i) (s.slotAt (instrSlotByte i).toNat).phase with
    | false =>
      refine ⟨_, exec_faulted (headerFault_lifecycle hop hs hallow), ?_⟩
      rw [lifecycleTable_of_forbidden hallow]
    | true =>
      refine ⟨_, exec_eq_commandNext (headerFault_none hs hallow), ?_⟩
      rw [lifecycleTable_of_allowed hallow]
      refine ⟨congrArg Slot.phase (commandNext_slotAt hop hs), rfl, ?_⟩
      rw [commandNext, List.length_append, length_commandResponse_of_allowed hop hallow]
  · exact ⟨_, exec_eq_commandNext (headerFault_noSlot _ s hop), commandSlots_of_noSlot s hop⟩
  · rw [List.eq_of_mem_replicate hc]
    rfl

end Sys2Proof.Proofs
end

section
/-! SUPPORT. The proofs of the statements on reset and hazards (70_reset_and_hazards.md): a whole packet always makes a step
(R262), and how a run ends (R265). -/

namespace Sys2Proof.Proofs

open Sys2Proof.Machine Sys2Proof.Laws

/-! ## Where the engine has a step (R262) -/

/-- Every command has a next state, be it the fault of its header. -/
theorem exists_exec_eq_next (i : Instr) (s : State) : ∃ t, exec i s = .next t := by
  cases hf : headerFault (instrOpcode i) (instrSlotByte i) s with
  | none => exact ⟨_, exec_eq_commandNext hf⟩
  | some c => exact ⟨_, exec_faulted hf⟩

/-- Settles O13: the packet decodes, the step is its command, and every command has a next state. -/
theorem wholePacketAlwaysSteps : Obligations.WholePacketAlwaysSteps := by
  intro s i rest hh hw hb
  have hd : decode s.cmdIn = .packet i rest := by rw [hb, decode_encode hw]
  rw [step_of_decode hh hd]
  exact exists_exec_eq_next i s

/-! ## Where it has none (R265) -/

theorem halted_of_fetch_halted {s : State} (h : fetch s = .halted) : s.halted = true := by
  rw [fetch] at h
  split at h
  · assumption
  · split at h
    · cases h
    · cases h
    · split at h
      · cases h
      · split at h <;> cases h

/-- The two ways to have no step: the halt and the wait for bytes (R80). -/
theorem halted_or_waiting_of_no_step {s : State} (h : ∀ t, step s ≠ .next t) :
    s.halted = true ∨ fetch s = .waiting := by
  cases hf : fetch s with
  | halted => exact .inl (halted_of_fetch_halted hf)
  | waiting => exact .inr rfl
  | raise c h0 h1 => exact absurd (by rw [step, hf]) (h (s.raiseFault c h0 h1))
  | run i =>
    obtain ⟨t, ht⟩ := exists_exec_eq_next i s
    exact absurd (by rw [step, hf]; exact ht) (h t)

/-- In each of the three ends the step answers one of the two reasons not to go on. -/
theorem step_eq_fault_of_end {s : State} (h : EndedWell s ∨ EndedBadly s ∨ Stuck s) : ∃ r, step s = .fault r := by
  obtain ⟨hempty, hh⟩ | hh | ⟨hh, -, hshort | ⟨i, missing, hw, hadm, hm, he⟩⟩ := h
  · exact ⟨_, step_of_short hh (by simp [hempty])⟩
  · exact ⟨_, step_of_halted hh⟩
  · exact ⟨_, step_of_short hh hshort⟩
  · exact ⟨_, step_of_proper_beginning hh hw hadm hm he.symm⟩

/-- Settles O14: STATUS.FAULT sets the bad end apart from the other two, and CMD_IN being empty those two from each other. -/
theorem noStepMeansEndedOrStuck : Obligations.NoStepMeansEndedOrStuck := by
  refine ⟨fun s hno => ?_, fun s hend t => ?_⟩
  · obtain hh | hwait := halted_or_waiting_of_no_step hno
    · have hrun : s.halted ≠ false := by simp [hh]
      exact .inr (.inl ⟨fun hwell => hrun hwell.2, hh, fun hstuck => hrun hstuck.1⟩)
    · obtain ⟨hh, hbytes⟩ := of_fetch_waiting hwait
      have hgood : ¬ EndedBadly s := by simp [EndedBadly, hh]
      by_cases hempty : s.cmdIn = []
      · exact .inl ⟨⟨hempty, hh⟩, hgood, fun hstuck => hstuck.2.1 hempty⟩
      · exact .inr (.inr ⟨fun hwell => hempty hwell.1, hgood, hh, hempty, hbytes⟩)
  · obtain ⟨r, hr⟩ := step_eq_fault_of_end hend
    rw [hr]
    exact nofun

end Sys2Proof.Proofs
end
